-- ==== Sys2Proof/Word.lean ====
section
/-! DEFINITION. The data types of the INF1018-1 Int128 core (spec/10_state.md R10 to R12, spec/30_encoding.md R50 to R52)
and the eight operation names (spec/00_scope.md R2). Nothing here computes. -/

namespace Sys2Proof

/-- The 8-bit unsigned unit of R10. -/
abbrev Byte := BitVec 8

/-- An Int128: the 128-bit vector view of R10, tied to its sixteen bytes by R11. -/
abbrev Int128 := BitVec 128

/-- The command word `CW[15:0]` of R50. -/
abbrev CommandWord := BitVec 16

/-- The scalar operand `S[63:0]` of R50. -/
abbrev Scalar := BitVec 64

/-- A slot number of the operand store (R17, R30): every 4-bit field value names a slot, so none can be out of range. -/
abbrev Slot := Fin 16

/-- A byte index inside a slot (R30). -/
abbrev ByteIndex := Fin 16

/-- The eight operations of R2, in the order of their opcode numbers (R52). -/
inductive Opcode where
  | val | comp2 | sum | sub | shl | shr | sar | mul
deriving DecidableEq, Repr

end Sys2Proof
end

