-- ==== Sys2Proof/Syntax.lean ====
section
/-! DEFINITION. The eight commands of spec/00_scope.md R2 with the operands spec/30_encoding.md R53 says each one uses.
An ignored field of the command word is no operand (R55), so none appears here. -/

namespace Sys2Proof

/-- A command, with its used operands only: destination slot `d`, source slots `a` and `b`, and the scalar already read as
`signed(S)` (R54). The order of operands is the assembler's, result first (R58). DESIGN CHOICE (notes/assumptions/7.md): the scalar
is an integer, so a term out of the 64-bit range can be written, and `wellFormed` refuses it. -/
inductive Instr where
  | val (d : Slot) (imm : Int)             -- R62: x[d] <- F_val(imm)
  | comp2 (d a : Slot)                     -- R67: x[d] <- F_comp2(x[a])
  | sum (d a b : Slot)                     -- R71: x[d] <- F_sum(x[a], x[b])
  | sub (d a b : Slot)                     -- R73: x[d] <- F_sub(x[a], x[b])
  | shl (d a : Slot) (n : Int)             -- R84: x[d] <- F_shl(x[a], n)
  | shr (d a : Slot) (n : Int)             -- R86: x[d] <- F_shr(x[a], n)
  | sar (d a : Slot) (n : Int)             -- R88: x[d] <- F_sar(x[a], n)
  | mul (d a b : Slot)                     -- R96: x[d] <- F_mul(x[a], x[b])
deriving DecidableEq, Repr

end Sys2Proof
end

