-- ==== Sys2Proof/WellFormed.lean ====
section
/-! DEFINITION. Which terms of `Instr` are commands. Slot numbers need no check (`Slot` holds 0 to 15 and nothing else);
a scalar does: "An immediate outside −2^63 .. 2^63−1 is an assembler error, not a command" (spec/30_encoding.md R58). -/

namespace Sys2Proof

/-- The range of `signed(S)` (R54): −2^63 to 2^63−1. -/
def scalarInRange (v : Int) : Bool := -(2 ^ 63) ≤ v && v < 2 ^ 63

/-- The check of R58 on the scalar operand of `val` and of the three shifts. -/
def Instr.wellFormed : Instr → Bool
  | .val _ imm => scalarInRange imm
  | .comp2 _ _ => true
  | .sum _ _ _ => true
  | .sub _ _ _ => true
  | .shl _ _ n => scalarInRange n
  | .shr _ _ n => scalarInRange n
  | .sar _ _ n => scalarInRange n
  | .mul _ _ _ => true

end Sys2Proof
end

