-- ==== Sys2Proof/Decode.lean ====
section
/-! DEFINITION. Decoding and encoding a command (spec/30_encoding.md R50 to R58, spec/opcode_table.json). Every command word
with every scalar is a legal command (R55), so decoding is a total function and rejects nothing. -/

namespace Sys2Proof

/-- The 3-bit opcode value of each operation (R52). -/
def Opcode.bits : Opcode → BitVec 3
  | .val => 0
  | .comp2 => 1
  | .sum => 2
  | .sub => 3
  | .shl => 4
  | .shr => 5
  | .sar => 6
  | .mul => 7

/-- The operation of each opcode value: all eight values of the 3-bit field are used (R52). -/
def Opcode.ofBits (b : BitVec 3) : Opcode :=
  if b = 0 then .val
  else if b = 1 then .comp2
  else if b = 2 then .sum
  else if b = 3 then .sub
  else if b = 4 then .shl
  else if b = 5 then .shr
  else if b = 6 then .sar
  else .mul

/-- Whether the operation reads the slot named by the field `ra` (R53). -/
def Opcode.usesRa : Opcode → Bool
  | .val => false
  | .comp2 | .sum | .sub | .shl | .shr | .sar | .mul => true

/-- Whether the operation reads the slot named by the field `rb` (R53). -/
def Opcode.usesRb : Opcode → Bool
  | .sum | .sub | .mul => true
  | .val | .comp2 | .shl | .shr | .sar => false

/-- Whether the operation reads the scalar `S` (R53). -/
def Opcode.usesScalar : Opcode → Bool
  | .val | .shl | .shr | .sar => true
  | .comp2 | .sum | .sub | .mul => false

/-- The field `op`, `CW[14:12]` (R51). -/
def fieldOp (cw : CommandWord) : BitVec 3 := cw.extractLsb' 12 3

/-- The field `d`, `CW[11:8]` (R51). -/
def fieldD (cw : CommandWord) : Slot := (cw.extractLsb' 8 4).toFin

/-- The field `ra`, `CW[7:4]` (R51). -/
def fieldRa (cw : CommandWord) : Slot := (cw.extractLsb' 4 4).toFin

/-- The field `rb`, `CW[3:0]` (R51). -/
def fieldRb (cw : CommandWord) : Slot := (cw.extractLsb' 0 4).toFin

/-- `signed(S)`: the scalar read as a 64-bit two's-complement integer, all 64 bits of it (R54). -/
def signedScalar (sc : Scalar) : Int := sc.toInt

/-- The command a pair (`CW`, `S`) stands for (R52, R53). Bit 15 and the ignored fields are not read (R55).
DESIGN CHOICE (notes/assumptions/12.md): the spec contradicts itself on `0x8312`. R55's example reads it as `sum x3, x1, x2`, while
the fields of R51, the opcode map of R52 and the row of spec/95_test_vectors.md 2.8 make it `val x3`. The model takes `val x3`. -/
def decode (cw : CommandWord) (sc : Scalar) : Instr :=
  match Opcode.ofBits (fieldOp cw) with
  | .val => .val (fieldD cw) (signedScalar sc)
  | .comp2 => .comp2 (fieldD cw) (fieldRa cw)
  | .sum => .sum (fieldD cw) (fieldRa cw) (fieldRb cw)
  | .sub => .sub (fieldD cw) (fieldRa cw) (fieldRb cw)
  | .shl => .shl (fieldD cw) (fieldRa cw) (signedScalar sc)
  | .shr => .shr (fieldD cw) (fieldRa cw) (signedScalar sc)
  | .sar => .sar (fieldD cw) (fieldRa cw) (signedScalar sc)
  | .mul => .mul (fieldD cw) (fieldRa cw) (fieldRb cw)

/-- The operation of an instruction. -/
def Instr.opcode : Instr → Opcode
  | .val _ _ => .val
  | .comp2 _ _ => .comp2
  | .sum _ _ _ => .sum
  | .sub _ _ _ => .sub
  | .shl _ _ _ => .shl
  | .shr _ _ _ => .shr
  | .sar _ _ _ => .sar
  | .mul _ _ _ => .mul

/-- The command word with bit 15 zero and the given fields: the sum of R58's table, which lays them out as the pattern
`zooo dddd aaaa bbbb` of R51. -/
def commandWord (op : Opcode) (d ra rb : Slot) : CommandWord :=
  BitVec.ofNat 16 (0x1000 * op.bits.toNat + 0x100 * d.val + 0x10 * ra.val + rb.val)

/-- The scalar pattern of an integer: `n mod 2^64` (R58). -/
def scalarPattern (n : Int) : Scalar := BitVec.ofInt 64 n

/-- What an assembler writes for an instruction: 0 in every ignored field and in `S` where it is ignored (R55, R58). -/
def encode : Instr → CommandWord × Scalar
  | .val d imm => (commandWord .val d 0 0, scalarPattern imm)
  | .comp2 d a => (commandWord .comp2 d a 0, 0)
  | .sum d a b => (commandWord .sum d a b, 0)
  | .sub d a b => (commandWord .sub d a b, 0)
  | .shl d a n => (commandWord .shl d a 0, scalarPattern n)
  | .shr d a n => (commandWord .shr d a 0, scalarPattern n)
  | .sar d a n => (commandWord .sar d a 0, scalarPattern n)
  | .mul d a b => (commandWord .mul d a b, 0)

/-- A command laid out as one number: bits 15..0 are `CW`, bits 79..16 are `S`, bits from `nbits` up are zero.
DESIGN CHOICE (notes/assumptions/6.md): the spec presents `CW` and `S` together on a port and numbers no bit across the two. -/
def tableCommand (nbits w : Nat) : CommandWord × Scalar :=
  (BitVec.ofNat 16 (w % 2 ^ nbits), BitVec.ofNat 64 ((w % 2 ^ nbits) >>> 16))

/-- The instruction read from a command whose bits are `w`. No command is refused (R55), so it always answers. -/
def decodeTableWord (nbits w : Nat) : Option Instr :=
  some (decode (tableCommand nbits w).1 (tableCommand nbits w).2)

end Sys2Proof
end

