-- ==== Sys2Proof/Config.lean ====
section
/-! DEFINITION. What is fixed for the machine: the parameters of spec/00_scope.md R6 and R7, and the one value the spec leaves
free, the contents of the operand store at power-on (spec/10_state.md R23). -/

namespace Sys2Proof

/-- `WIDTH` of R6: bits in an Int128. -/
def Config.width : Nat := 128

/-- `NBYTES` of R6: bytes in an Int128. -/
def Config.nbytes : Nat := 16

/-- `W` of R7: the width in bits of the native integer `val` takes. Other widths: R64, `Machine.fValWidth`. -/
def Config.nativeWidth : Nat := 64

/-- `SW` of R7: the width in bits of the scalar operand. -/
def Config.scalarWidth : Nat := 64

/-- `NSLOT` of R7: the number of slots in the operand store. -/
def Config.nslot : Nat := 16

/-- `CWLEN` of R7: bits in a command word. -/
def Config.commandWordLength : Nat := 16

/-- The pattern each slot holds at power-on: "some definite 16-byte pattern that no rule of this spec constrains" (R23).
It has no body, so no proof can know a value of it, as R23 asks ("it must not assume zero").
DESIGN CHOICE (notes/assumptions/1.md): a named constant of the model, one value for every run. -/
opaque Config.powerOnSlot : Slot → Int128

end Sys2Proof
end

