-- ==== Sys2Proof/Machine/State.lean ====
section
/-! DEFINITION. The state: the operand store of spec/10_state.md R17, which is all the state the hardware has (R16, R18 to R21),
and beside it the host's side of the interface of spec/20_memory.md R40 to R43 as plain data. -/

namespace Sys2Proof.Machine

/-- What the host can do to the hardware: the five transactions of R36 (a command, R50, and the four host accesses, R41 and
R42), and a reset between transactions (spec/70_reset_and_hazards.md R110). Slot and byte numbers outside 0 to 15 cannot be
written down: such an access "is not a transaction" (R43). -/
inductive HostEvent where
  | command (cw : CommandWord) (sc : Scalar)
  | writeByte (i : Slot) (k : ByteIndex) (v : Byte)
  | writeSlot (i : Slot) (w : Int128)
  | readByte (i : Slot) (k : ByteIndex)
  | readSlot (i : Slot)
  | reset
deriving DecidableEq, Repr

/-- What the host gets back from a read (R42, R43). -/
inductive HostAnswer where
  | byte (v : Byte)
  | slot (w : Int128)
deriving DecidableEq, Repr

/-- The state. Only `x` is the hardware's; `port` and `answers` are the host's side (notes/assumptions/2.md): no command reads or
writes them. -/
structure State where
  /-- The operand store `x[0] .. x[15]` (R17): no byte-addressed memory exists (R30). DESIGN CHOICE (notes/assumptions/5.md): sixteen
  values in a row, not a list of address and byte pairs. -/
  x : Vector Int128 16
  /-- The transactions the host has still to issue, the next one first (R36, R113). -/
  port : List HostEvent
  /-- What the host's reads have returned, oldest first (R42). -/
  answers : List HostAnswer
deriving DecidableEq, Repr

/-- The reasons the machine can stop with a fault: none. "The set of synchronous exceptions is empty"
(spec/60_exceptions.md R101) and "the hardware has no fault" (spec/93_implementation_defined.md). -/
inductive Fault where
deriving DecidableEq, Repr

/-- The reasons an instruction can have no meaning. -/
inductive Refusal where
  /-- Raised by an arm of `exec` whose instruction has no meaning yet. No arm of this model raises it. Safe. -/
  | notModelled (mnemonic : String)
deriving DecidableEq, Repr

/-- The machine after power-on: every slot holds an unconstrained pattern (R23), no transaction is pending and nothing has been
read (`NoneInFlight`, spec/70_reset_and_hazards.md R119). -/
def State.reset : State where
  x := Vector.ofFn Config.powerOnSlot
  port := []
  answers := []

end Sys2Proof.Machine
end

