-- ==== Sys2Proof/Machine/Ops.lean ====
section
/-! DEFINITION. The named operations: the two views of an Int128 (spec/10_state.md R11), the operand store (R17,
spec/20_memory.md R30, R33), and the host's side of the interface (R40 to R43).

There is no operation that takes an exception or returns from one: the hardware has no exception, no interrupt, no trap and no
mode (spec/60_exceptions.md R101, R102, R104, R105). -/

namespace Sys2Proof.Machine

/-- `v.B[k]` of R11: bits `8k+7 .. 8k`. -/
def byteOf (v : Int128) (k : Nat) : Byte := v.extractLsb' (8 * k) 8

/-- `bytes(v)`: the sixteen bytes in index order, least significant first (R10, R11). -/
def bytes (v : Int128) : List Byte := (List.range 16).map (byteOf v)

/-- `Σ l[k] · 256^k`: the number a little-endian byte list stands for (R11). -/
def leValue : List Byte → Nat
  | [] => 0
  | b :: bs => b.toNat + 256 * leValue bs

/-- `from_bytes(l)` (R11, R31). -/
def ofBytes (l : List Byte) : Int128 := BitVec.ofNat 128 (leValue l)

/-- The value `v` with byte `k` replaced: `x[i].B[k] <- b` of R41 on one Int128. -/
def setByte (v : Int128) (k : ByteIndex) (b : Byte) : Int128 := ofBytes ((bytes v).set k.val b)

/-- Read of slot `i`, all sixteen bytes, no side effect (R33). -/
def State.slot (s : State) (i : Slot) : Int128 := s.x[i]

/-- Write of all sixteen bytes of slot `i` in one indivisible step (R33). -/
def State.setSlot (s : State) (i : Slot) (v : Int128) : State := { s with x := s.x.set i v }

/-- The host gets a read's value back (R42, R43). -/
def State.answer (s : State) (a : HostAnswer) : State := { s with answers := s.answers ++ [a] }

/-- The host's next transaction and the state with it taken off the list, or `none` where the host has issued all of them (R113). -/
def State.takeEvent (s : State) : Option (HostEvent × State) :=
  match s.port with
  | [] => none
  | e :: rest => some (e, { s with port := rest })

/-- The host presents a transaction as its very next one. -/
def State.present (s : State) (e : HostEvent) : State := { s with port := e :: s.port }

end Sys2Proof.Machine
end

