-- ==== Sys2Proof/Machine/Operands.lean ====
section
/-! DEFINITION. The operand forms (spec/30_encoding.md R53): which slots a command reads and writes, and the three shapes every
command has. Each shape reads whole source slots before it writes the whole destination (spec/20_memory.md R33, R34), so a
destination that is also a source needs no case of its own, and the destination is never zeroed first
(spec/70_reset_and_hazards.md R115, R116). -/

namespace Sys2Proof

/-- The destination slot `d` (R53: every command writes one slot). -/
def Instr.dest : Instr → Slot
  | .val d _ => d
  | .comp2 d _ => d
  | .sum d _ _ => d
  | .sub d _ _ => d
  | .shl d _ _ => d
  | .shr d _ _ => d
  | .sar d _ _ => d
  | .mul d _ _ => d

/-- The slots a command reads (R30, R53). -/
def Instr.sources : Instr → List Slot
  | .val _ _ => []
  | .comp2 _ a => [a]
  | .sum _ a b => [a, b]
  | .sub _ a b => [a, b]
  | .shl _ a _ => [a]
  | .shr _ a _ => [a]
  | .sar _ a _ => [a]
  | .mul _ a b => [a, b]

end Sys2Proof

namespace Sys2Proof.Machine

/-- A command with no slot operand: `x[d] <- r`. -/
def writeResult (d : Slot) (r : Int128) (s : State) : Host.Outcome State Fault Refusal :=
  .next (s.setSlot d r)

/-- A command with one slot operand: `va <- x[a]`, then `x[d] <- f(va)` (R34). -/
def unary (f : Int128 → Int128) (d a : Slot) (s : State) : Host.Outcome State Fault Refusal :=
  let va := s.slot a
  writeResult d (f va) s

/-- A command with two slot operands: `va <- x[a]`, `vb <- x[b]`, then `x[d] <- f(va, vb)` (R34). -/
def binary (f : Int128 → Int128 → Int128) (d a b : Slot) (s : State) : Host.Outcome State Fault Refusal :=
  let va := s.slot a
  let vb := s.slot b
  writeResult d (f va vb) s

end Sys2Proof.Machine
end

