-- ==== Sys2Proof/Machine/Construct.lean ====
section
/-! DEFINITION. Construction from a native integer, `val` (spec/40_construct.md). -/

namespace Sys2Proof.Machine

/-- `F_val` of R61 for a native width of `W` bits: the low `W/8` bytes are those of the two's-complement pattern `v mod 2^W`, the
others the sign fill. PRESUMED (notes/assumptions/11.md): that the pattern is two's complement. R64 gives it for every multiple of 8 from 8 to 120. -/
def fValWidth (W : Nat) (v : Int) : Int128 :=
  let p := (v % 2 ^ W).toNat
  let fill : Byte := if 0 ≤ v then 0x00 else 0xFF
  ofBytes ((List.range 16).map fun k => if k < W / 8 then BitVec.ofNat 8 (p >>> (8 * k)) else fill)

/-- `F_val` of R61 with the width this hardware implements, `W = 64` (R7, R64). -/
def fVal (v : Int) : Int128 := fValWidth Config.nativeWidth v

/-- `val xd, imm` (R62). -/
def execVal (d : Slot) (imm : Int) (s : State) : Host.Outcome State Fault Refusal :=
  writeResult d (fVal imm) s

end Sys2Proof.Machine
end

