-- ==== Sys2Proof/Machine/Flags.lean ====
section
/-! DEFINITION. There are no flags (spec/10_state.md R19). What the spec computes in their place are the carry and the borrow that
live inside one operation and are discarded at its end (R22): this file holds one byte's step of each carry chain, and the one
operation that runs a chain along a list of bytes. Intermediates are unbounded integers, so none can truncate
(spec/92_eei_decisions.md D20). PRESUMED (notes/assumptions/11.md): the operator symbols are read as G1 of
spec/93_implementation_defined.md reads them. -/

namespace Sys2Proof.Machine

/-- Runs a carry chain along a list in the order given: each step turns the carry in and an element into a byte of the result and
the carry out. The carry out of the last element is discarded. -/
def carryChain {α : Type} (f : Nat → α → Byte × Nat) : Nat → List α → List Byte
  | _, [] => []
  | c, a :: as => (f c a).1 :: carryChain f (f c a).2 as

/-- One byte of R65: `t <- ~8(a) + carry`, with `~8(v) = 255 − v`. -/
def comp2Step (carry : Nat) (a : Byte) : Byte × Nat :=
  let t := (255 - a.toNat) + carry
  (BitVec.ofNat 8 t, t >>> 8)

/-- One byte of R70: `t <- a + b + carry`. -/
def sumStep (carry : Nat) (ab : Byte × Byte) : Byte × Nat :=
  let t := ab.1.toNat + ab.2.toNat + carry
  (BitVec.ofNat 8 t, t >>> 8)

/-- One byte of R72: `t <- a − b − borrow`, a signed intermediate; if negative, add 256 and borrow. -/
def subStep (borrow : Nat) (ab : Byte × Byte) : Byte × Nat :=
  let t : Int := (ab.1.toNat : Int) - (ab.2.toNat : Int) - (borrow : Int)
  if t < 0 then (BitVec.ofInt 8 (t + 256), 1) else (BitVec.ofInt 8 t, 0)

/-- One byte of the ascending bit pass of R83: `w <- (t << bi) | carry`. -/
def shlStep (bi : Nat) (carry : Nat) (t : Byte) : Byte × Nat :=
  let w := (t.toNat <<< bi) ||| carry
  (BitVec.ofNat 8 w, w >>> 8)

/-- One byte of the descending bit pass of R85 and R87: `(t >> bi) | ((carry << (8 − bi)) & 0xFF)`, carrying the low `bi` bits. -/
def shrStep (bi : Nat) (carry : Nat) (t : Byte) : Byte × Nat :=
  (BitVec.ofNat 8 ((t.toNat >>> bi) ||| ((carry <<< (8 - bi)) &&& 0xFF)), t.toNat &&& ((1 <<< bi) - 1))

end Sys2Proof.Machine
end

