-- ==== Sys2Proof/Machine/AddSub.lean ====
section
/-! DEFINITION. Addition and subtraction, `sum` and `sub` (spec/42_add_sub.md). Overflow is not an event (R76). -/

namespace Sys2Proof.Machine

/-- `F_sum` of R70: byte-wise sum, carry from byte 0 to byte 15, the last carry discarded. -/
def fSum (a b : Int128) : Int128 := ofBytes (carryChain sumStep 0 ((bytes a).zip (bytes b)))

/-- `F_sub` of R72: byte-wise `a − b`, borrow from byte 0 to byte 15, the last borrow discarded. -/
def fSub (a b : Int128) : Int128 := ofBytes (carryChain subStep 0 ((bytes a).zip (bytes b)))

/-- `sum xd, xa, xb` (R71). -/
def execSum (d a b : Slot) (s : State) : Host.Outcome State Fault Refusal :=
  binary fSum d a b s

/-- `sub xd, xa, xb` (R73): `x[a]` is the minuend. -/
def execSub (d a b : Slot) (s : State) : Host.Outcome State Fault Refusal :=
  binary fSub d a b s

end Sys2Proof.Machine
end

