-- ==== Sys2Proof/Machine/Shifts.lean ====
section
/-! DEFINITION. The three shifts, `shl`, `shr` and `sar` (spec/43_shifts.md). Each is defined for every integer count: zero or less
copies (R80), 128 or more gives zero or the sign fill (R81), and in between a byte pass into a temporary is followed by a bit pass
(R82). -/

namespace Sys2Proof.Machine

/-- The byte pass of R83: every byte moves up by `byteShift` places, zero below. -/
def bytesUp (byteShift : Nat) (a : Int128) : List Byte :=
  (List.range 16).map fun i => if byteShift ≤ i then byteOf a (i - byteShift) else 0x00

/-- The byte pass of R85 and R87: every byte moves down by `byteShift` places, `fill` above. -/
def bytesDown (byteShift : Nat) (fill : Byte) (a : Int128) : List Byte :=
  (List.range 16).map fun i => if i + byteShift ≤ 15 then byteOf a (i + byteShift) else fill

/-- The descending bit pass of R85 and R87: byte 15 first, `seed` the carry into it. -/
def bitPassDown (bitShift seed : Nat) (t : List Byte) : List Byte :=
  (carryChain (shrStep bitShift) seed t.reverse).reverse

/-- The sign bit `a[127]` (R12). -/
def isNegative (a : Int128) : Bool := a.getLsbD 127

/-- The sign-fill byte of R81 and R87. -/
def signFill (a : Int128) : Byte := if isNegative a then 0xFF else 0x00

/-- `F_shl` of R83. -/
def fShl (a : Int128) (n : Int) : Int128 :=
  if n ≤ 0 then a
  else if 128 ≤ n then ofBytes (List.replicate 16 0x00)
  else
    let byteShift := n.toNat / 8
    let bitShift := n.toNat % 8
    ofBytes (carryChain (shlStep bitShift) 0 (bytesUp byteShift a))

/-- `F_shr` of R85. -/
def fShr (a : Int128) (n : Int) : Int128 :=
  if n ≤ 0 then a
  else if 128 ≤ n then ofBytes (List.replicate 16 0x00)
  else
    let byteShift := n.toNat / 8
    let bitShift := n.toNat % 8
    ofBytes (bitPassDown bitShift 0 (bytesDown byteShift 0x00 a))

/-- `F_sar` of R87: the sign is the input's, read before anything is written (R115 (b)). -/
def fSar (a : Int128) (n : Int) : Int128 :=
  if n ≤ 0 then a
  else if 128 ≤ n then ofBytes (List.replicate 16 (signFill a))
  else
    let byteShift := n.toNat / 8
    let bitShift := n.toNat % 8
    let seed := if isNegative a then (1 <<< bitShift) - 1 else 0
    ofBytes (bitPassDown bitShift seed (bytesDown byteShift (signFill a) a))

/-- `shl xd, xa, n` (R84). -/
def execShl (d a : Slot) (n : Int) (s : State) : Host.Outcome State Fault Refusal :=
  unary (fun va => fShl va n) d a s

/-- `shr xd, xa, n` (R86). -/
def execShr (d a : Slot) (n : Int) (s : State) : Host.Outcome State Fault Refusal :=
  unary (fun va => fShr va n) d a s

/-- `sar xd, xa, n` (R88). -/
def execSar (d a : Slot) (n : Int) (s : State) : Host.Outcome State Fault Refusal :=
  unary (fun va => fSar va n) d a s

end Sys2Proof.Machine
end

