-- ==== Sys2Proof/Machine/Multiply.lean ====
section
/-! DEFINITION. Multiplication modulo 2^128 by shift and add, `mul` (spec/44_multiply.md): composed of the adder and the shifter, no
arithmetic of its own (R95). -/

namespace Sys2Proof.Machine

/-- The accumulator and the shifted copy of `a` of R95 before iteration `j`, that is after bits `0 .. j−1` of `b`. -/
def mulAfter (a b : Int128) : Nat → Int128 × Int128
  | 0 => (0, a)
  | j + 1 =>
    let (acc, sa) := mulAfter a b j
    (if b.getLsbD j then fSum acc sa else acc, fShl sa 1)

/-- `F_mul` of R95: the accumulator after all 128 bits of `b`, with no early exit. -/
def fMul (a b : Int128) : Int128 := (mulAfter a b 128).1

/-- `mul xd, xa, xb` (R96): `x[a]` is the multiplicand, `x[b]` the multiplier. -/
def execMul (d a b : Slot) (s : State) : Host.Outcome State Fault Refusal :=
  binary fMul d a b s

end Sys2Proof.Machine
end

