-- ==== Sys2Proof/Machine/Negate.lean ====
section
/-! DEFINITION. Two's-complement negation, `comp2` (spec/41_negate.md). -/

namespace Sys2Proof.Machine

/-- `F_comp2` of R65: invert each byte and add 1, the carry running from byte 0 to byte 15 and then discarded. -/
def fComp2 (a : Int128) : Int128 := ofBytes (carryChain comp2Step 1 (bytes a))

/-- `comp2 xd, xa` (R67). -/
def execComp2 (d a : Slot) (s : State) : Host.Outcome State Fault Refusal :=
  unary fComp2 d a s

end Sys2Proof.Machine
end

