-- ==== Sys2Proof/Machine/Datapath.lean ====
section
/-! DEFINITION. The datapath as one function, `EXEC(op, a, b, s)` of spec/00_scope.md R8. -/

namespace Sys2Proof.Machine

/-- `EXEC` of R8: the eight datapath functions behind one selector; each ignores the arguments R8 says it ignores. -/
def datapath (op : Opcode) (a b : Int128) (sc : Scalar) : Int128 :=
  match op with
  | .val => fVal (signedScalar sc)
  | .comp2 => fComp2 a
  | .sum => fSum a b
  | .sub => fSub a b
  | .shl => fShl a (signedScalar sc)
  | .shr => fShr a (signedScalar sc)
  | .sar => fSar a (signedScalar sc)
  | .mul => fMul a b

end Sys2Proof.Machine
end

