-- ==== Sys2Proof/Machine/Dispatch.lean ====
section
/-! DEFINITION. Which meaning each instruction has: one arm per constructor of `Instr`. -/

namespace Sys2Proof.Machine

def exec (i : Instr) (s : State) : Host.Outcome State Fault Refusal :=
  match i with
  | .val d imm => Sys2Proof.Machine.execVal d imm s
  | .comp2 d a => Sys2Proof.Machine.execComp2 d a s
  | .sum d a b => Sys2Proof.Machine.execSum d a b s
  | .sub d a b => Sys2Proof.Machine.execSub d a b s
  | .shl d a n => Sys2Proof.Machine.execShl d a n s
  | .shr d a n => Sys2Proof.Machine.execShr d a n s
  | .sar d a n => Sys2Proof.Machine.execSar d a n s
  | .mul d a b => Sys2Proof.Machine.execMul d a b s

end Sys2Proof.Machine
end

