-- ==== Sys2Proof/Machine/HostAccess.lean ====
section
/-! DEFINITION. The transactions that are not commands: host writes and reads (spec/20_memory.md R41, R42) and a reset between
transactions (spec/70_reset_and_hazards.md R110). -/

namespace Sys2Proof.Machine

/-- `HostWriteByte(i, k, v)` (R41): one byte of one slot. -/
def hostWriteByte (i : Slot) (k : ByteIndex) (v : Byte) (s : State) : State :=
  s.setSlot i (setByte (s.slot i) k v)

/-- `HostWriteSlot(i, w)` (R41): `x[i] <- w`. -/
def hostWriteSlot (i : Slot) (w : Int128) (s : State) : State := s.setSlot i w

/-- `HostReadByte(i, k)` (R42): the host gets `x[i].B[k]`. -/
def hostReadByte (i : Slot) (k : ByteIndex) (s : State) : State :=
  s.answer (.byte (byteOf (s.slot i) k.val))

/-- `HostReadSlot(i)` (R42): the host gets `x[i]`. -/
def hostReadSlot (i : Slot) (s : State) : State := s.answer (.slot (s.slot i))

/-- A reset "changes no architectural state" and "does not touch the operand store" (R110). DESIGN CHOICE
(notes/assumptions/4.md): it is an event of the host's list and leaves the rest of that list pending. -/
def coreReset (s : State) : State := s

end Sys2Proof.Machine
end

