-- ==== Sys2Proof/Machine/Step.lean ====
section
/-! DEFINITION. One step: the host's next transaction, performed whole (spec/20_memory.md R36). -/

namespace Sys2Proof.Machine

/-- One atomic transaction in the host's order (R36). Where the host has issued all of them the core is idle and holds its state
(spec/60_exceptions.md R108, spec/70_reset_and_hazards.md R113). DESIGN CHOICE (notes/assumptions/3.md): idling is a step. -/
def step (s : State) : Host.Outcome State Fault Refusal :=
  match s.takeEvent with
  | none => .next s
  | some (.command cw sc, s') => exec (decode cw sc) s'
  | some (.writeByte i k v, s') => .next (hostWriteByte i k v s')
  | some (.writeSlot i w, s') => .next (hostWriteSlot i w s')
  | some (.readByte i k, s') => .next (hostReadByte i k s')
  | some (.readSlot i, s') => .next (hostReadSlot i s')
  | some (.reset, s') => .next (coreReset s')

/-- `s` with the host about to present the command whose bits are `w` (`tableCommand`): the very next step performs it. There is
no instruction memory to store it in (R39). -/
def State.withFetchWord (s : State) (nbits w : Nat) : State :=
  s.present (.command (tableCommand nbits w).1 (tableCommand nbits w).2)

end Sys2Proof.Machine
end

