-- ==== Sys2Proof/Machine/Assembler.lean ====
section
/-! DEFINITION. The assembler and the disassembler of spec/30_encoding.md R58 to R60, on a line already split into a name and its
operands. How a line of characters is split is no part of the hardware ("any notion of parsing or CLI" is out of scope,
spec/00_scope.md R5). There are no pseudo-instructions, labels or directives (R60). DEDUCED (notes/assumptions/8.md): which operands
are assembler errors. -/

namespace Sys2Proof

/-- An operand as R58 writes it: a slot `x<i>`, a signed decimal integer, or a `0x` 64-bit pattern. -/
inductive AsmOperand where
  | slot (i : Nat)
  | decimal (v : Int)
  | pattern (p : Nat)
deriving DecidableEq, Repr

/-- The mnemonic of each operation (R58). -/
def Opcode.mnemonic : Opcode → String
  | .val => "val"
  | .comp2 => "comp2"
  | .sum => "sum"
  | .sub => "sub"
  | .shl => "shl"
  | .shr => "shr"
  | .sar => "sar"
  | .mul => "mul"

/-- The second name of each operation (R59). -/
def Opcode.longName : Opcode → String
  | .val => "construct"
  | .comp2 => "negate"
  | .sum => "add"
  | .sub => "subtract"
  | .shl => "shift_left_logical"
  | .shr => "shift_right_logical"
  | .sar => "shift_right_arithmetic"
  | .mul => "multiply"

/-- All eight operations, in the order of R2. -/
def Opcode.all : List Opcode := [.val, .comp2, .sum, .sub, .shl, .shr, .sar, .mul]

/-- The operation a name stands for, the short name or the long one (R58, R59). -/
def Opcode.ofName (name : String) : Option Opcode :=
  Opcode.all.find? fun op => name == op.mnemonic || name == op.longName

/-- A slot operand: `x0` to `x15` and no other (R58). -/
def AsmOperand.slot? : AsmOperand → Option Slot
  | .slot i => if h : i < 16 then some ⟨i, h⟩ else none
  | .decimal _ => none
  | .pattern _ => none

/-- A scalar operand: a decimal in range, or a 64-bit pattern read as signed; anything else is an assembler error (R58). -/
def AsmOperand.scalar? : AsmOperand → Option Int
  | .slot _ => none
  | .decimal v => if scalarInRange v then some v else none
  | .pattern p => if p < 2 ^ 64 then some (signedScalar (BitVec.ofNat 64 p)) else none

/-- The instruction a line stands for (R58), or `none` for an assembler error. -/
def parseLine (op : Opcode) (operands : List AsmOperand) : Option Instr :=
  match op, operands with
  | .val, [d, v] => do return .val (← d.slot?) (← v.scalar?)
  | .comp2, [d, a] => do return .comp2 (← d.slot?) (← a.slot?)
  | .sum, [d, a, b] => do return .sum (← d.slot?) (← a.slot?) (← b.slot?)
  | .sub, [d, a, b] => do return .sub (← d.slot?) (← a.slot?) (← b.slot?)
  | .shl, [d, a, n] => do return .shl (← d.slot?) (← a.slot?) (← n.scalar?)
  | .shr, [d, a, n] => do return .shr (← d.slot?) (← a.slot?) (← n.scalar?)
  | .sar, [d, a, n] => do return .sar (← d.slot?) (← a.slot?) (← n.scalar?)
  | .mul, [d, a, b] => do return .mul (← d.slot?) (← a.slot?) (← b.slot?)
  | _, _ => none

/-- The command a line assembles to (R58, R59), or `none` for an assembler error, which is no command. -/
def assemble (name : String) (operands : List AsmOperand) : Option (CommandWord × Scalar) := do
  let op ← Opcode.ofName name
  let i ← parseLine op operands
  return encode i

/-- The operands a disassembler prints: the used fields only (R55), in the assembler's operand order (R58).
DESIGN CHOICE (notes/assumptions/13.md): a scalar is printed as a signed decimal. R58 lets an assembler read a decimal or a `0x`
pattern, and no rule says which of the two a disassembler prints. -/
def Instr.operands : Instr → List AsmOperand
  | .val d imm => [.slot d, .decimal imm]
  | .comp2 d a => [.slot d, .slot a]
  | .sum d a b => [.slot d, .slot a, .slot b]
  | .sub d a b => [.slot d, .slot a, .slot b]
  | .shl d a n => [.slot d, .slot a, .decimal n]
  | .shr d a n => [.slot d, .slot a, .decimal n]
  | .sar d a n => [.slot d, .slot a, .decimal n]
  | .mul d a b => [.slot d, .slot a, .slot b]

/-- What a disassembler reads of a command: the short name (R59) and the used operands (R55). -/
def disassemble (cw : CommandWord) (sc : Scalar) : String × List AsmOperand :=
  ((decode cw sc).opcode.mnemonic, (decode cw sc).operands)

end Sys2Proof
end

