-- ==== Sys2Proof/Safety.lean ====
section
/-! DEFINITION. The terms claims use: what a completed command leaves, which slots a transaction touches, when two transactions would
race (spec/60_exceptions.md R107), and what the host's list of transactions does to the store, written without `step`. -/

namespace Sys2Proof.Machine

/-- The frame of a command: in `t` slot `d` holds `r`, and everything else is as it was in `s`: every other slot (R57), the host's
remaining transactions and the answers it has got. There is no other state (R16, R18 to R21). -/
def OnlySlotWritten (d : Slot) (r : Int128) (s t : State) : Prop :=
  t.slot d = r ∧ (∀ j, j ≠ d → t.slot j = s.slot j) ∧ t.port = s.port ∧ t.answers = s.answers

/-- The slot a transaction writes, if any (R30, R43). -/
def HostEvent.writes : HostEvent → Option Slot
  | .command cw sc => some (decode cw sc).dest
  | .writeByte i _ _ => some i
  | .writeSlot i _ => some i
  | .readByte _ _ => none
  | .readSlot _ => none
  | .reset => none

/-- The slots a transaction reads. A byte write keeps the other fifteen bytes (R41), so what it leaves depends on its own slot. -/
def HostEvent.reads : HostEvent → List Slot
  | .command cw sc => (decode cw sc).sources
  | .writeByte i _ _ => [i]
  | .writeSlot _ _ => []
  | .readByte i _ => [i]
  | .readSlot i => [i]
  | .reset => []

/-- Two transactions touch a common slot, at least one of them writing it: the case (b) of R107. -/
abbrev HostEvent.conflict (e e' : HostEvent) : Prop :=
  ∃ i, (e.writes = some i ∧ (e'.writes = some i ∨ i ∈ e'.reads)) ∨ (e'.writes = some i ∧ i ∈ e.reads)

/-- Whether the host gets something back for a transaction (R43). -/
def HostEvent.isRead : HostEvent → Bool
  | .readByte _ _ => true
  | .readSlot _ => true
  | .command _ _ => false
  | .writeByte _ _ _ => false
  | .writeSlot _ _ => false
  | .reset => false

/-- What a transaction does to the operand store, straight from the rules: a command is R57 with `EXEC` of R8, a host write is R41,
a read (R42) and a reset (R110) change nothing. -/
def HostEvent.onStore (x : Vector Int128 16) : HostEvent → Vector Int128 16
  | .command cw sc =>
    x.set (fieldD cw) (datapath (Opcode.ofBits (fieldOp cw)) x[fieldRa cw] x[fieldRb cw] sc)
  | .writeByte i k v => x.set i (setByte x[i] k v)
  | .writeSlot i w => x.set i w
  | .readByte _ _ => x
  | .readSlot _ => x
  | .reset => x

/-- What the host gets back for a transaction performed on the store `x` (R42, R43). -/
def HostEvent.answersOn (x : Vector Int128 16) : HostEvent → List HostAnswer
  | .readByte i k => [.byte (byteOf x[i] k)]
  | .readSlot i => [.slot x[i]]
  | .command _ _ => []
  | .writeByte _ _ _ => []
  | .writeSlot _ _ => []
  | .reset => []

/-- The store after a list of transactions, one after another, each on what its predecessor left (R36, R114). -/
def storeAfter : Vector Int128 16 → List HostEvent → Vector Int128 16
  | x, [] => x
  | x, e :: es => storeAfter (e.onStore x) es

/-- What the host gets back over a list of transactions, in order. -/
def answersAfter : Vector Int128 16 → List HostEvent → List HostAnswer
  | _, [] => []
  | x, e :: es => e.answersOn x ++ answersAfter (e.onStore x) es

/-- Seen from an earlier state `s₀`: the host is somewhere in the list it had then (R36), and a slot that no transaction of that list
writes still holds what it held (R17: the core "touches no other slot"). -/
def UnnamedSlotsKept (s₀ s : State) : Prop :=
  s.port <:+ s₀.port ∧ ∀ i, (∀ e ∈ s₀.port, e.writes ≠ some i) → s.slot i = s₀.slot i

end Sys2Proof.Machine
end

