-- ==== Sys2Proof/Certificates/Slice0/Obligations.lean ====
section
/-! DEFINITION. The statements for the provers. Each docstring says which rule of spec/ it formalises, or which of its sections it is
derived from. `next` is the outcome of a completed step; the hardware has no other (spec/60_exceptions.md R100). -/

open Sys2Proof Sys2Proof.Machine

/-! ### Encoding and decoding (spec/30_encoding.md) -/

/-- Command words written out bit by bit as `zooo dddd aaaa bbbb` (R51, R52) stand for the commands spec/95_test_vectors.md 2.8 gives,
one for each operation, the last three with ignored bits set (R55). That `0x8312` is `val x3, 0` is the model's choice between R55's
own example (`sum x3, x1, x2`) and R51, R52 and the test vector (log entry 12). -/
def Obligations.WrittenOutWordsDecode : Prop :=
  decode 0b0000000100000000#16 0xFFFFFFFFFFFFFFFB#64 = .val 1 (-5) ∧
  decode 0b0001001000010000#16 0#64 = .comp2 2 1 ∧
  decode 0b0010001100010010#16 0#64 = .sum 3 1 2 ∧
  decode 0b0011111100001111#16 0#64 = .sub 15 0 15 ∧
  decode 0b0100010001000000#16 0xFFFFFFFFFFFFFFFF#64 = .shl 4 4 (-1) ∧
  decode 0b0101010101100000#16 0x7F#64 = .shr 5 6 127 ∧
  decode 0b0110100110100000#16 0x80#64 = .sar 9 10 128 ∧
  decode 0b0111001100010010#16 0#64 = .mul 3 1 2 ∧
  decode 0b1000001100010010#16 0#64 = .val 3 0 ∧
  decode 0b1001001111111111#16 5#64 = .comp2 3 15 ∧
  decode 0b1111111111111111#16 0xFFFFFFFFFFFFFFFF#64 = .mul 15 15 15

/-- Every well-formed instruction, every operand at every value its encoding admits, comes back from its own command word and scalar
(R51 to R54, R58). -/
def Obligations.DecodeOfEncodeIsIdentity : Prop :=
  ∀ i : Instr, i.wellFormed = true → decode (encode i).1 (encode i).2 = i

/-- Every command word with every scalar is a well-formed instruction (R54, R55). -/
def Obligations.EveryCommandIsWellFormed : Prop :=
  ∀ (cw : CommandWord) (sc : Scalar), (decode cw sc).wellFormed = true

/-- Two commands are the same instruction exactly when they agree on the opcode, the destination and the fields R53 says the operation
uses: no other bit is read, and every bit of a used field is (R53, R54, R55). -/
def Obligations.DecodeReadsExactlyTheUsedFields : Prop :=
  ∀ (cw cw' : CommandWord) (sc sc' : Scalar),
    decode cw sc = decode cw' sc' ↔
      fieldOp cw = fieldOp cw' ∧ fieldD cw = fieldD cw' ∧
      ((Opcode.ofBits (fieldOp cw)).usesRa = true → fieldRa cw = fieldRa cw') ∧
      ((Opcode.ofBits (fieldOp cw)).usesRb = true → fieldRb cw = fieldRb cw') ∧
      ((Opcode.ofBits (fieldOp cw)).usesScalar = true → sc = sc')

/-- Assembling what was decoded gives the command back with 0 in the spare bit, in every ignored field and in an ignored scalar, and
nothing else changed (R55, R58). -/
def Obligations.EncodeOfDecodeClearsIgnoredBits : Prop :=
  ∀ (cw : CommandWord) (sc : Scalar),
    encode (decode cw sc) =
      ((if (Opcode.ofBits (fieldOp cw)).usesRb then cw &&& 0x7FFF#16
        else if (Opcode.ofBits (fieldOp cw)).usesRa then cw &&& 0x7FF0#16
        else cw &&& 0x7F00#16),
       if (Opcode.ofBits (fieldOp cw)).usesScalar then sc else 0#64)

/-- What a disassembler prints of a command assembles to that command's canonical form (R55, R58). That it prints the scalar as a
decimal is the model's choice (log entry 13). -/
def Obligations.AssembleOfDisassembleIsEncode : Prop :=
  ∀ (cw : CommandWord) (sc : Scalar),
    assemble (disassemble cw sc).1 (disassemble cw sc).2 = some (encode (decode cw sc))

/-- The eight long names are accepted with the same operands and the same encoding, and a disassembler prints the short name (R59). -/
def Obligations.LongNamesAssembleAlike : Prop :=
  (∀ ops, assemble "construct" ops = assemble "val" ops ∧ assemble "negate" ops = assemble "comp2" ops ∧
    assemble "add" ops = assemble "sum" ops ∧ assemble "subtract" ops = assemble "sub" ops ∧
    assemble "shift_left_logical" ops = assemble "shl" ops ∧ assemble "shift_right_logical" ops = assemble "shr" ops ∧
    assemble "shift_right_arithmetic" ops = assemble "sar" ops ∧ assemble "multiply" ops = assemble "mul" ops) ∧
  (∀ (cw : CommandWord) (sc : Scalar), some (disassemble cw sc).1 =
    ["val", "comp2", "sum", "sub", "shl", "shr", "sar", "mul"][(fieldOp cw).toNat]?)

/-- An immediate outside −2^63 .. 2^63−1 assembles to no command, and every immediate inside to one, for `val` and the three shifts
(R58). -/
def Obligations.ImmediateRangeIsEnforced : Prop :=
  ∀ (d a : Slot) (v : Int),
    ((assemble "val" [.slot d, .decimal v]).isSome = true ↔ -(2 ^ 63) ≤ v ∧ v < 2 ^ 63) ∧
    ((assemble "shl" [.slot d, .slot a, .decimal v]).isSome = true ↔ -(2 ^ 63) ≤ v ∧ v < 2 ^ 63) ∧
    ((assemble "shr" [.slot d, .slot a, .decimal v]).isSome = true ↔ -(2 ^ 63) ≤ v ∧ v < 2 ^ 63) ∧
    ((assemble "sar" [.slot d, .slot a, .decimal v]).isSome = true ↔ -(2 ^ 63) ≤ v ∧ v < 2 ^ 63)

/-- A `0x` pattern below 2^64 assembles to the command that carries exactly those 64 bits as its scalar, the command word being R58's
sum, and a longer pattern to no command (R58; that a longer one is an error is log entry 8). -/
def Obligations.PatternImmediateIsCarriedBitForBit : Prop :=
  ∀ (d a : Slot) (p : Nat),
    assemble "val" [.slot d, .pattern p] =
      (if p < 2 ^ 64 then some (BitVec.ofNat 16 (0x0000 + d.val <<< 8), BitVec.ofNat 64 p) else none) ∧
    assemble "shl" [.slot d, .slot a, .pattern p] =
      (if p < 2 ^ 64 then some (BitVec.ofNat 16 (0x4000 + d.val <<< 8 + a.val <<< 4), BitVec.ofNat 64 p) else none) ∧
    assemble "shr" [.slot d, .slot a, .pattern p] =
      (if p < 2 ^ 64 then some (BitVec.ofNat 16 (0x5000 + d.val <<< 8 + a.val <<< 4), BitVec.ofNat 64 p) else none) ∧
    assemble "sar" [.slot d, .slot a, .pattern p] =
      (if p < 2 ^ 64 then some (BitVec.ofNat 16 (0x6000 + d.val <<< 8 + a.val <<< 4), BitVec.ofNat 64 p) else none)

/-! ### A step and the machine as a whole

Where a statement speaks of `port` (the transactions the host has still to issue) or of `answers` (what its reads returned), it rests
on the model's choice to hold the host's side in the state, log entry 2. -/

/-- A step on a command is `exec` of the instruction the command decodes to, on the state with the command taken off the host's list:
nothing else happens around it (R36, R50, R57). -/
def Obligations.StepPerformsDecodedCommand : Prop :=
  ∀ (s : State) (cw : CommandWord) (sc : Scalar) (rest : List HostEvent),
    s.port = .command cw sc :: rest → step s = exec (decode cw sc) { s with port := rest }

/-- The command whose bits are placed for the next step is performed by it, a 16-bit row with the scalar zero (R50). That the host's
list stands for the command port is the model's choice (log entries 2 and 6). -/
def Obligations.PlacedCommandIsPerformedNext : Prop :=
  ∀ (s : State) (w : Nat),
    step (s.withFetchWord 16 w) = exec (decode (BitVec.ofNat 16 w) 0#64) s

/-- R57 whole, with `EXEC` of R8: both sources read before the write, all sixteen bytes of `x[d]` written, nothing else changed, whatever
the command word and the scalar are. -/
def Obligations.CommandWritesDatapathResult : Prop :=
  ∀ (s : State) (cw : CommandWord) (sc : Scalar),
    ∃ t, exec (decode cw sc) s = .next t ∧
      OnlySlotWritten (fieldD cw)
        (datapath (Opcode.ofBits (fieldOp cw)) (s.slot (fieldRa cw)) (s.slot (fieldRb cw)) sc) s t

/-- R100: every command on every state completes, and so does every step: never a fault, never a refusal. -/
def Obligations.EveryStepCompletes : Prop :=
  (∀ (i : Instr) (s : State), ∃ t, exec i s = .next t) ∧ (∀ s : State, ∃ t, step s = .next t)

/-- R15: the value a command leaves in its destination is a function of the source slot values, `S` and the opcode only. Two commands
with the same opcode, from any two states, that read equal values from the slots they use and carry the same scalar where they use it
leave the same value, whichever slots they name and whatever their destinations and all other slots held before. -/
def Obligations.ResultDependsOnSourcesOnly : Prop :=
  ∀ (s s' : State) (cw cw' : CommandWord) (sc sc' : Scalar),
    fieldOp cw = fieldOp cw' →
    ((Opcode.ofBits (fieldOp cw)).usesRa = true → s.slot (fieldRa cw) = s'.slot (fieldRa cw')) →
    ((Opcode.ofBits (fieldOp cw)).usesRb = true → s.slot (fieldRb cw) = s'.slot (fieldRb cw')) →
    ((Opcode.ofBits (fieldOp cw)).usesScalar = true → sc = sc') →
      ∃ t t', exec (decode cw sc) s = .next t ∧ exec (decode cw' sc') s' = .next t' ∧
        t.slot (fieldD cw) = t'.slot (fieldD cw')

/-- The value `op d, ra, rb` computes is the same for every destination, a source slot among them (R34). -/
def Obligations.AliasingDoesNotChangeResult : Prop :=
  ∀ (s : State) (cw cw' : CommandWord) (sc : Scalar),
    fieldOp cw = fieldOp cw' → fieldRa cw = fieldRa cw' → fieldRb cw = fieldRb cw' →
      ∃ t t', exec (decode cw sc) s = .next t ∧ exec (decode cw' sc) s = .next t' ∧
        t.slot (fieldD cw) = t'.slot (fieldD cw')

/-- No command reads or writes the host's side: with another list of transactions and other answers it does the same to the store
(R18, R43). That the host's side stands in the state is the model's choice (log entry 2). -/
def Obligations.CommandsDoNotTouchHostSide : Prop :=
  ∀ (i : Instr) (s : State) (p : List HostEvent) (q : List HostAnswer),
    ∃ t, exec i s = .next t ∧ t.port = s.port ∧ t.answers = s.answers ∧
      exec i { s with port := p, answers := q } = .next { t with port := p, answers := q }

/-- The host's whole list of transactions, run step by step from any state, leaves the store that the rules give when each transaction
is taken on what its predecessor left, and gives the host every answer in order (R36, R42, R113, R114; a reset on the list is log entry 4). -/
def Obligations.RunPerformsTransactionsInOrder : Prop :=
  ∀ s : State,
    Host.Core.run Sys2Proof.core s.port.length s =
      .next { x := storeAfter s.x s.port, port := [], answers := s.answers ++ answersAfter s.x s.port }

/-- Two transactions that touch disjoint slots, or share only slots neither writes, give the same store and the same answers in either
order (R107 (a)). -/
def Obligations.DisjointTransactionsCommute : Prop :=
  ∀ (s : State) (e e' : HostEvent), ¬ e.conflict e' →
    ∃ t t' : State, Host.Core.run Sys2Proof.core 2 { s with port := [e, e'] } = .next t ∧
      Host.Core.run Sys2Proof.core 2 { s with port := [e', e] } = .next t' ∧
      t.x = t'.x ∧ t.answers.Perm t'.answers

/-- Every step keeps: the host is somewhere in the list it had at `s₀`, and a slot no transaction of that list writes holds what it held
at `s₀` (R17, R30, R36). -/
def Obligations.StepKeepsUnnamedSlots : Prop :=
  ∀ s₀ s t : State, UnnamedSlotsKept s₀ s → step s = .next t → UnnamedSlotsKept s₀ t

/-- The invariant of `StepKeepsUnnamedSlots` from its start on: from every state, `State.reset` among them, any number of steps
completes, the host is then somewhere in the list it started with, and a slot no transaction of that list writes holds what it held
at the start (R17, R36, R100). No steps at all is the invariant at the start itself. -/
def Obligations.UnnamedSlotsKeptAlongEveryRun : Prop :=
  ∀ (k : Nat) (s : State), ∃ t : State, Host.Core.run Sys2Proof.core k s = .next t ∧ UnnamedSlotsKept s t

/-- Every step takes at most the head off the host's list, keeps every answer already given, and gives one answer for a read and none
for anything else, so answers and outstanding reads always add up the same (R36, R42, R43). -/
def Obligations.StepKeepsReadAccount : Prop :=
  ∀ s t : State, step s = .next t →
    t.port = s.port.tail ∧ s.answers <+: t.answers ∧
      t.answers.length + (t.port.filter HostEvent.isRead).length = s.answers.length + (s.port.filter HostEvent.isRead).length

/-- With no transaction left the core is idle and keeps its state (R108, R113). That idling is a step is the model's choice (log entry
3). -/
def Obligations.IdleCoreKeepsState : Prop :=
  ∀ s : State, s.port = [] → step s = .next s

/-! ### The eight commands: what each leaves, and that it completes -/

/-- `val` leaves the native integer sign-extended to 128 bits, for every native integer (R61, R62). -/
def Obligations.ValWritesSignExtension : Prop :=
  ∀ (d : Slot) (v : Int) (s : State), -(2 ^ 63) ≤ v → v < 2 ^ 63 →
    ∃ t, exec (.val d v) s = .next t ∧ OnlySlotWritten d ((BitVec.ofInt 64 v).signExtend 128) s t

/-- `comp2` leaves the 128-bit negation of its source (R66, R67). -/
def Obligations.Comp2WritesNegation : Prop :=
  ∀ (d a : Slot) (s : State),
    ∃ t, exec (.comp2 d a) s = .next t ∧ OnlySlotWritten d (-(s.slot a)) s t

/-- `sum` leaves the sum of its sources modulo 2^128 (R71, R74). -/
def Obligations.SumWritesModularSum : Prop :=
  ∀ (d a b : Slot) (s : State),
    ∃ t, exec (.sum d a b) s = .next t ∧ OnlySlotWritten d (s.slot a + s.slot b) s t

/-- `sub` leaves the first source minus the second modulo 2^128 (R73, R75). -/
def Obligations.SubWritesModularDifference : Prop :=
  ∀ (d a b : Slot) (s : State),
    ∃ t, exec (.sub d a b) s = .next t ∧ OnlySlotWritten d (s.slot a - s.slot b) s t

/-- `shl` leaves a copy for a count of zero or less, and the source shifted left for every greater count (zero from 128 on)
(R80, R81, R84, R89). -/
def Obligations.ShlWritesLeftShift : Prop :=
  ∀ (d a : Slot) (n : Int) (s : State),
    ∃ t, exec (.shl d a n) s = .next t ∧
      OnlySlotWritten d (if n ≤ 0 then s.slot a else s.slot a <<< n.toNat) s t

/-- `shr` leaves a copy for a count of zero or less, and the source shifted right with zeros for every greater count
(R80, R81, R86, R89). -/
def Obligations.ShrWritesLogicalRightShift : Prop :=
  ∀ (d a : Slot) (n : Int) (s : State),
    ∃ t, exec (.shr d a n) s = .next t ∧
      OnlySlotWritten d (if n ≤ 0 then s.slot a else s.slot a >>> n.toNat) s t

/-- `sar` leaves a copy for a count of zero or less, and the source shifted right with copies of its sign for every greater count
(R80, R81, R88, R89). -/
def Obligations.SarWritesArithmeticRightShift : Prop :=
  ∀ (d a : Slot) (n : Int) (s : State),
    ∃ t, exec (.sar d a n) s = .next t ∧
      OnlySlotWritten d (if n ≤ 0 then s.slot a else (s.slot a).sshiftRight n.toNat) s t

/-- `mul` leaves the product of its sources modulo 2^128 (R96, R97). -/
def Obligations.MulWritesModularProduct : Prop :=
  ∀ (d a b : Slot) (s : State),
    ∃ t, exec (.mul d a b) s = .next t ∧ OnlySlotWritten d (s.slot a * s.slot b) s t

/-- The two idioms of R60: a shift by 0 copies a slot, and `val` of 0 clears one. -/
def Obligations.CopyAndClearIdioms : Prop :=
  ∀ (d a : Slot) (s : State),
    (∃ t, exec (.shl d a 0) s = .next t ∧ OnlySlotWritten d (s.slot a) s t) ∧
    (∃ t, exec (.val d 0) s = .next t ∧ OnlySlotWritten d 0#128 s t)

/-! ### Laws of the datapath functions -/

/-- R61: the low eight bytes are those of the two's-complement pattern, least significant first, the high eight are the fill, and the
whole is the pattern sign-extended. -/
def Obligations.ConstructBytes : Prop :=
  ∀ v : Int, -(2 ^ 63) ≤ v → v < 2 ^ 63 →
    (∀ k, k < 8 → (byteOf (fVal v) k).toNat = (v % 2 ^ 64).toNat / 2 ^ (8 * k) % 256) ∧
    (∀ k, 8 ≤ k → k < 16 → byteOf (fVal v) k = if 0 ≤ v then 0x00 else 0xFF) ∧
    fVal v = (BitVec.ofInt 64 v).signExtend 128

/-- For every width R64 admits, construction round-trips, in both readings, fills the high bytes by sign, and carries the sign into bit
127 (R63 (a), (c), (d), R64). -/
def Obligations.ConstructRoundTripsAtEveryWidth : Prop :=
  ∀ (W : Nat) (v : Int), 8 ∣ W → 8 ≤ W → W ≤ 120 → -(2 ^ (W - 1)) ≤ v → v < 2 ^ (W - 1) →
    (fValWidth W v).toInt = v ∧
    ((fValWidth W v).toNat : Int) = v % 2 ^ 128 ∧
    (∀ k, W / 8 ≤ k → k < 16 → byteOf (fValWidth W v) k = if 0 ≤ v then 0x00 else 0xFF) ∧
    (isNegative (fValWidth W v) = true ↔ v < 0)

/-- Construction is injective, and what it reaches is exactly the values whose bytes 8 to 15 are all `0x00` or all `0xFF` in agreement
with bit 7 of byte 7 (R63 (e)). -/
def Obligations.ConstructImage : Prop :=
  (∀ v w : Int, -(2 ^ 63) ≤ v → v < 2 ^ 63 → -(2 ^ 63) ≤ w → w < 2 ^ 63 → fVal v = fVal w → v = w) ∧
  (∀ r : Int128, (∃ v : Int, -(2 ^ 63) ≤ v ∧ v < 2 ^ 63 ∧ fVal v = r) ↔
    ∀ k, 8 ≤ k → k < 16 → byteOf r k = if (byteOf r 7).getLsbD 7 then 0xFF else 0x00)

/-- R66 (a) to (f). -/
def Obligations.NegationLaws : Prop :=
  (∀ a : Int128, (fComp2 a).toNat = (2 ^ 128 - a.toNat) % 2 ^ 128) ∧
  (∀ a : Int128, a.toInt ≠ -(2 ^ 127) → (fComp2 a).toInt = -a.toInt) ∧
  (∀ a : Int128, a.toInt = -(2 ^ 127) → fComp2 a = a) ∧
  (∀ a : Int128, fComp2 (fComp2 a) = a) ∧
  fComp2 0#128 = 0#128 ∧
  (∀ a : Int128, fSum a (fComp2 a) = 0#128) ∧
  (∀ a : Int128, fComp2 a = a ↔ a.toNat = 0 ∨ a.toNat = 2 ^ 127)

/-- R74 (a) to (e): the word form, the signed reading with its exact range and its error of 2^128 outside, commutativity and
associativity, the identity, the inverse. -/
def Obligations.AdditionLaws : Prop :=
  (∀ a b : Int128, (fSum a b).toNat = (a.toNat + b.toNat) % 2 ^ 128) ∧
  (∀ a b : Int128, (fSum a b).toInt ≡ a.toInt + b.toInt [ZMOD 2 ^ 128]) ∧
  (∀ a b : Int128, -(2 ^ 127) ≤ a.toInt + b.toInt → a.toInt + b.toInt < 2 ^ 127 → (fSum a b).toInt = a.toInt + b.toInt) ∧
  (∀ a b : Int128, a.toInt + b.toInt < -(2 ^ 127) → (fSum a b).toInt = a.toInt + b.toInt + 2 ^ 128) ∧
  (∀ a b : Int128, 2 ^ 127 ≤ a.toInt + b.toInt → (fSum a b).toInt = a.toInt + b.toInt - 2 ^ 128) ∧
  (∀ a b : Int128, fSum a b = fSum b a) ∧
  (∀ a b c : Int128, fSum (fSum a b) c = fSum a (fSum b c)) ∧
  (∀ a : Int128, fSum a 0#128 = a) ∧
  (∀ a : Int128, fSum a (fComp2 a) = 0#128)

/-- R75 (a) to (d): the byte-wise borrow agrees with adding the negation, for all pairs. -/
def Obligations.SubtractionLaws : Prop :=
  (∀ a b : Int128, fSub a b = fSum a (fComp2 b)) ∧
  (∀ a b : Int128, ((fSub a b).toNat : Int) = ((a.toNat : Int) - (b.toNat : Int)) % 2 ^ 128) ∧
  (∀ a : Int128, fSub a a = 0#128) ∧
  (∀ a : Int128, fSub a 0#128 = a) ∧
  (∀ b : Int128, fSub 0#128 b = fComp2 b) ∧
  (∀ a b : Int128, fSub b a = fComp2 (fSub a b)) ∧
  (∃ a b : Int128, fSub a b ≠ fSub b a)

/-- R80: a count of zero or less copies, in all three shifts. -/
def Obligations.ShiftByZeroOrLessCopies : Prop :=
  ∀ (a : Int128) (n : Int), n ≤ 0 → fShl a n = a ∧ fShr a n = a ∧ fSar a n = a

/-- R81: a count of 128 or more gives zero, or for `sar` sixteen copies of the sign-fill byte; the count is not reduced. -/
def Obligations.ShiftByWidthOrMoreFills : Prop :=
  ∀ (a : Int128) (n : Int), 128 ≤ n →
    fShl a n = 0#128 ∧ fShr a n = 0#128 ∧
    fSar a n = if a.getLsbD 127 then BitVec.allOnes 128 else 0#128

/-- R89: the word forms of the three shifts, for every count from 0 up (the formulas hold at both ends), the bits of `sar` in the middle
range, and the copy for a negative count. -/
def Obligations.ShiftWordForms : Prop :=
  (∀ (a : Int128) (n : Nat), (fShl a n).toNat = a.toNat * 2 ^ n % 2 ^ 128) ∧
  (∀ (a : Int128) (n : Nat), (fShr a n).toNat = a.toNat / 2 ^ n) ∧
  (∀ (a : Int128) (n : Nat), (fSar a n).toInt = a.toInt / 2 ^ n) ∧
  (∀ (a : Int128) (n : Nat) (i : Nat), 0 < n → n < 128 → 128 - n ≤ i → i < 128 → (fShr a n).getLsbD i = false) ∧
  (∀ (a : Int128) (n : Nat) (i : Nat), 0 < n → n < 128 → i < 128 →
    (fSar a n).getLsbD i = if i < 127 - n then a.getLsbD (n + i) else a.getLsbD 127) ∧
  (∀ (a : Int128) (n : Int), n < 0 → fShl a n = a ∧ fShr a n = a ∧ fSar a n = a)

/-- R91: of a negative value the two right shifts differ for every positive count, at bit 127 at least, and agree otherwise; of a
non-negative value they always agree. -/
def Obligations.LogicalAgainstArithmeticShift : Prop :=
  (∀ (a : Int128) (n : Int), isNegative a = true → 0 < n →
    fShr a n ≠ fSar a n ∧ (fShr a n).getLsbD 127 = false ∧ (fSar a n).getLsbD 127 = true) ∧
  (∀ (a : Int128) (n : Int), isNegative a = true → n ≤ 0 → fShr a n = a ∧ fSar a n = a) ∧
  (∀ (a : Int128) (n : Int), isNegative a = false → fShr a n = fSar a n)

/-- R92: shifting left by `k` is multiplying by the constructed 2^k for `k` below 63, for every value, and not at 63; shifting a
constructed non-negative native integer right is constructing its quotient. -/
def Obligations.ShiftsAgainstMultiplyAndNative : Prop :=
  (∀ (a : Int128) (k : Nat), k < 63 → fShl a k = fMul a (fVal (2 ^ k))) ∧
  fShl (fVal 1) 63 ≠ fMul (fVal 1) (fVal (-(2 ^ 63))) ∧
  (∀ (v : Int) (k : Nat), 0 ≤ v → v < 2 ^ 63 → k < 63 → fShr (fVal v) k = fVal (v / 2 ^ k))

/-- Before iteration `j` the shifted copy is `a · 2^j` and the accumulator is `a` times the low `j` bits of `b`, modulo 2^128 (R95). -/
def Obligations.ShiftAndAddInvariant : Prop :=
  ∀ (a b : Int128) (j : Nat), j ≤ 128 →
    (mulAfter a b j).2.toNat = a.toNat * 2 ^ j % 2 ^ 128 ∧
    (mulAfter a b j).1.toNat = a.toNat * (b.toNat % 2 ^ j) % 2 ^ 128

/-- R97: 128 byte-level additions and shifts compute the product modulo 2^128; read as signed it is congruent to the product, and equal
to it exactly when the product is in range. -/
def Obligations.ShiftAndAddIsRingProduct : Prop :=
  (∀ a b : Int128, (fMul a b).toNat = a.toNat * b.toNat % 2 ^ 128) ∧
  (∀ a b : Int128, (fMul a b).toInt ≡ a.toInt * b.toInt [ZMOD 2 ^ 128]) ∧
  (∀ a b : Int128, (fMul a b).toInt = a.toInt * b.toInt ↔ -(2 ^ 127) ≤ a.toInt * b.toInt ∧ a.toInt * b.toInt < 2 ^ 127)

/-- R98: the ring laws, with multiplication distributing over addition (spec/90_conflicts.md C1), and the products by 0, 1, −1 and 2^k. -/
def Obligations.RingLaws : Prop :=
  (∀ a b : Int128, fSum a b = fSum b a ∧ fMul a b = fMul b a) ∧
  (∀ a b c : Int128, fSum (fSum a b) c = fSum a (fSum b c) ∧ fMul (fMul a b) c = fMul a (fMul b c)) ∧
  (∀ a b c : Int128, fMul a (fSum b c) = fSum (fMul a b) (fMul a c)) ∧
  (∀ a b : Int128, fMul a 0#128 = 0#128 ∧ fMul 0#128 b = 0#128) ∧
  (∀ a : Int128, fMul a (fVal 1) = a ∧ fMul a (fVal (-1)) = fComp2 a) ∧
  (∀ (a : Int128) (k : Nat), k < 63 → fMul a (fVal (2 ^ k)) = fShl a k)

/-! ### Host access and reset -/

/-- A step on a host access or a reset performs it on the state with it taken off the host's list (R36, R40; log entries 2 and 4). -/
def Obligations.StepPerformsHostAccess : Prop :=
  ∀ (s : State) (rest : List HostEvent) (i : Slot) (k : ByteIndex) (v : Byte) (w : Int128),
    step ({ s with port := .writeByte i k v :: rest } : State) = .next (hostWriteByte i k v { s with port := rest }) ∧
    step ({ s with port := .writeSlot i w :: rest } : State) = .next (hostWriteSlot i w { s with port := rest }) ∧
    step ({ s with port := .readByte i k :: rest } : State) = .next (hostReadByte i k { s with port := rest }) ∧
    step ({ s with port := .readSlot i :: rest } : State) = .next (hostReadSlot i { s with port := rest }) ∧
    step ({ s with port := .reset :: rest } : State) = .next (coreReset { s with port := rest })

/-- R41: a byte write changes that byte alone, a slot write that slot alone, and a slot write is the sixteen byte writes in any order. -/
def Obligations.HostWrites : Prop :=
  (∀ (s : State) (i : Slot) (k : ByteIndex) (v : Byte),
    byteOf ((hostWriteByte i k v s).slot i) k.val = v ∧
    (∀ j : ByteIndex, j ≠ k → byteOf ((hostWriteByte i k v s).slot i) j.val = byteOf (s.slot i) j.val) ∧
    (∀ j, j ≠ i → (hostWriteByte i k v s).slot j = s.slot j) ∧
    (hostWriteByte i k v s).port = s.port ∧ (hostWriteByte i k v s).answers = s.answers) ∧
  (∀ (s : State) (i : Slot) (w : Int128), OnlySlotWritten i w s (hostWriteSlot i w s)) ∧
  (∀ (s : State) (i : Slot) (w : Int128) (order : List ByteIndex), order.Perm (List.finRange 16) →
    order.foldl (fun t k => hostWriteByte i k (byteOf w k.val) t) s = hostWriteSlot i w s)

/-- A read gives the host the byte or the slot and changes nothing else, and two slots read alike exactly when all sixteen bytes are
equal (R42). That the host's answers stand in the state is the model's choice (log entry 2). -/
def Obligations.HostReads : Prop :=
  (∀ (s : State) (i : Slot) (k : ByteIndex),
    hostReadByte i k s = { s with answers := s.answers ++ [.byte (byteOf (s.slot i) k.val)] }) ∧
  (∀ (s : State) (i : Slot), hostReadSlot i s = { s with answers := s.answers ++ [.slot (s.slot i)] }) ∧
  (∀ (s : State) (i j : Slot), s.slot i = s.slot j ↔ ∀ k : ByteIndex, byteOf (s.slot i) k.val = byteOf (s.slot j) k.val)

/-- A host byte read right after a command returns that byte of the command's result, and any command right after a host byte write
computes on the sixteen bytes then in the slot, wherever it names that slot (R31, R33). -/
def Obligations.HostAndCommandsShareBytes : Prop :=
  (∀ (s : State) (cw : CommandWord) (sc : Scalar) (k : ByteIndex) (rest : List HostEvent),
    s.port = .command cw sc :: .readByte (fieldD cw) k :: rest →
      ∃ t : State, Host.Core.run Sys2Proof.core 2 s = .next t ∧
        t.answers = s.answers ++
          [.byte (byteOf (datapath (Opcode.ofBits (fieldOp cw)) (s.slot (fieldRa cw)) (s.slot (fieldRb cw)) sc) k.val)]) ∧
  (∀ (s : State) (i : Slot) (k : ByteIndex) (v : Byte) (cw : CommandWord) (sc : Scalar) (rest : List HostEvent),
    s.port = .writeByte i k v :: .command cw sc :: rest →
      ∃ t : State, Host.Core.run Sys2Proof.core 2 s = .next t ∧
        t.slot (fieldD cw) =
          datapath (Opcode.ofBits (fieldOp cw))
            (if fieldRa cw = i then ofBytes ((bytes (s.slot i)).set k.val v) else s.slot (fieldRa cw))
            (if fieldRb cw = i then ofBytes ((bytes (s.slot i)).set k.val v) else s.slot (fieldRb cw)) sc)

/-- A reset between transactions changes no slot (R110). That a reset is one of the host's events, and takes only itself off the
host's list, is the model's choice (log entry 4). -/
def Obligations.ResetKeepsEverySlot : Prop :=
  ∀ (s : State) (rest : List HostEvent), s.port = .reset :: rest → step s = .next { s with port := rest }

/-- At power-on nothing is in flight (R119), the host has read nothing, and each slot holds the pattern the model names for it. The
name is the model's choice (log entry 1): R23 gives no value, and `Config.powerOnSlot` has no body. -/
def Obligations.PowerOnHoldsNamedPatternsNothingPending : Prop :=
  State.reset.port = [] ∧ State.reset.answers = [] ∧ ∀ i : Slot, State.reset.slot i = Config.powerOnSlot i
end

