-- ==== Sys2Proof/Laws/Assembler.lean ====
section
/-! SUPPORT. The small laws of the assembler: every name is found, and an operand it printed is read back. -/

namespace Sys2Proof

@[simp] theorem ofName_mnemonic (op : Opcode) : Opcode.ofName op.mnemonic = some op := by cases op <;> decide

@[simp] theorem ofName_longName (op : Opcode) : Opcode.ofName op.longName = some op := by cases op <;> decide

@[simp] theorem slot?_slot (i : Slot) : (AsmOperand.slot i.val).slot? = some i := by simp [AsmOperand.slot?]

theorem scalar?_decimal (v : Int) : (AsmOperand.decimal v).scalar? = if scalarInRange v then some v else none := rfl

end Sys2Proof
end

