-- ==== Sys2Proof/Laws/Bytes.lean ====
section
/-! SUPPORT. The two views of an Int128 (spec/10_state.md R11): bytes and number agree, both ways. -/

namespace Sys2Proof.Machine

theorem byteOf_toNat (v : Int128) (k : Nat) : (byteOf v k).toNat = v.toNat / 256 ^ k % 256 := by
  simp [byteOf, BitVec.extractLsb'_toNat, Nat.shiftRight_eq_div_pow, pow_mul]

@[simp] theorem length_bytes (v : Int128) : (bytes v).length = 16 := by simp [bytes]

@[simp] theorem getElem_bytes (v : Int128) (k : Nat) (h : k < (bytes v).length) : (bytes v)[k] = byteOf v k := by
  simp [bytes]

theorem leValue_append (l m : List Byte) : leValue (l ++ m) = leValue l + 256 ^ l.length * leValue m := by
  induction l with
  | nil => simp [leValue]
  | cons b bs ih => simp only [List.cons_append, leValue, ih, List.length_cons, pow_succ]; ring

theorem leValue_lt (l : List Byte) : leValue l < 256 ^ l.length := by
  induction l with
  | nil => simp [leValue]
  | cons b bs ih =>
    have hb := b.isLt
    simp only [leValue, List.length_cons, pow_succ]
    omega

/-- The first `n` bytes of a value, as a number, are the value's remainder. -/
theorem leValue_range_byteOf (v : Int128) (n : Nat) : leValue ((List.range n).map (byteOf v)) = v.toNat % 256 ^ n := by
  induction n with
  | zero => simp [leValue, Nat.mod_one]
  | succ n ih => simp [List.range_succ, leValue_append, ih, leValue, byteOf_toNat, Nat.mod_pow_succ]

/-- `U(v) = Σ v.B[k] · 2^(8k)` (R11). -/
@[simp] theorem leValue_bytes (v : Int128) : leValue (bytes v) = v.toNat := by
  rw [bytes, leValue_range_byteOf]
  exact Nat.mod_eq_of_lt (by simpa using v.isLt)

@[simp] theorem ofBytes_bytes (v : Int128) : ofBytes (bytes v) = v := by simp [ofBytes]

/-- Sixteen bytes are read as the number they stand for. -/
theorem toNat_ofBytes {l : List Byte} (h : l.length = 16) : (ofBytes l).toNat = leValue l := by
  have := leValue_lt l
  rw [h] at this
  simpa [ofBytes] using Nat.mod_eq_of_lt this

/-- Byte `k` of the number a list stands for is the list's element `k`. -/
theorem leValue_div_mod (l : List Byte) (k : Nat) (h : k < l.length) : leValue l / 256 ^ k % 256 = l[k].toNat := by
  induction l generalizing k with
  | nil => simp at h
  | cons b bs ih =>
    have hb := b.isLt
    cases k with
    | zero => simp only [leValue, pow_zero, Nat.div_one, List.getElem_cons_zero]; omega
    | succ k =>
      rw [pow_succ', ← Nat.div_div_eq_div_mul, leValue, show (b.toNat + 256 * leValue bs) / 256 = leValue bs by omega]
      simpa using ih k (by simpa using h)

/-- Byte `k` of sixteen bytes put together is byte `k` (R11). -/
theorem byteOf_ofBytes {l : List Byte} (h : l.length = 16) (k : Nat) (hk : k < l.length) : byteOf (ofBytes l) k = l[k] := by
  apply BitVec.eq_of_toNat_eq
  rw [byteOf_toNat, toNat_ofBytes h, leValue_div_mod l k hk]

theorem bytes_ofBytes {l : List Byte} (h : l.length = 16) : bytes (ofBytes l) = l :=
  List.ext_getElem (by simp [h]) fun k _ hk => by rw [getElem_bytes, byteOf_ofBytes h k hk]

/-- Two Int128 values with equal bytes are equal (R10: there is no other field). -/
theorem eq_of_byteOf_eq {v w : Int128} (h : ∀ k, k < 16 → byteOf v k = byteOf w k) : v = w := by
  rw [← ofBytes_bytes v, ← ofBytes_bytes w]
  congr 1
  exact List.ext_getElem (by simp) fun k hk _ => by simpa using h k (by simpa using hk)

/-- What a byte write does to each byte of the value (R41). -/
theorem byteOf_setByte (v : Int128) (k : ByteIndex) (b : Byte) (j : Nat) (hj : j < 16) :
    byteOf (setByte v k b) j = if j = k.val then b else byteOf v j := by
  rw [setByte, byteOf_ofBytes (by simp) j (by simpa using hj), List.getElem_set]
  split <;> rename_i e
  · simp [e]
  · simp [Ne.symm e]

end Sys2Proof.Machine
end

