-- ==== Sys2Proof/Laws/Carry.lean ====
section
/-! SUPPORT. What a carry chain computes. `ofBytes_carryChain` covers the four ascending chains (R65, R70, R72, R83) and
`leValue_shrChain` the descending one (R85, R87). -/

namespace Sys2Proof.Machine

@[simp] theorem length_carryChain {α : Type} (f : Nat → α → Byte × Nat) (c : Nat) (l : List α) :
    (carryChain f c l).length = l.length := by
  induction l generalizing c with
  | nil => rfl
  | cons a as ih => simp [carryChain, ih]

/-- The number a list of base-256 digits stands for, each digit given by `g` and not yet carried. -/
def leSum {α : Type} (g : α → Int) : List α → Int
  | [] => 0
  | a :: as => g a + 256 * leSum g as

theorem leSum_toNat (l : List Byte) : leSum (fun b => (b.toNat : Int)) l = (leValue l : Int) := by
  induction l with
  | nil => rfl
  | cons b bs ih => simp [leSum, leValue, ih]

theorem leSum_mul (m : Int) (l : List Byte) : leSum (fun b => m * (b.toNat : Int)) l = m * (leValue l : Int) := by
  induction l with
  | nil => simp [leSum, leValue]
  | cons b bs ih => simp only [leSum, leValue, ih]; push_cast; ring

theorem leSum_complement (l : List Byte) :
    leSum (fun b => 255 - (b.toNat : Int)) l = 256 ^ l.length - 1 - (leValue l : Int) := by
  induction l with
  | nil => simp [leSum, leValue]
  | cons b bs ih => simp only [leSum, leValue, ih, List.length_cons, pow_succ]; push_cast; ring

theorem leSum_zip (m : Int) : ∀ as bs : List Byte, as.length = bs.length →
    leSum (fun p : Byte × Byte => (p.1.toNat : Int) + m * (p.2.toNat : Int)) (as.zip bs) =
      (leValue as : Int) + m * (leValue bs : Int)
  | [], [], _ => by simp [leSum, leValue]
  | a :: as, b :: bs, h => by
    have ih := leSum_zip m as bs (by simpa using h)
    simp only [List.zip_cons_cons, leSum, leValue, ih]; push_cast; ring
  | [], _ :: _, h => by simp at h
  | _ :: _, [], h => by simp at h

/-- A carry chain whose every step keeps "result byte plus 256 times the carry out is the digit plus the carry in" computes the whole
sum. `κ` reads the carry as a number (a borrow counts negatively) and `P` is what every carry satisfies. -/
theorem leValue_carryChain {α : Type} (f : Nat → α → Byte × Nat) (g : α → Int) (κ : Nat → Int) (P : Nat → Prop)
    (hf : ∀ c a, P c → ((f c a).1.toNat : Int) + 256 * κ (f c a).2 = g a + κ c ∧ P (f c a).2) :
    ∀ (l : List α) (c : Nat), P c →
      ∃ c', (leValue (carryChain f c l) : Int) + 256 ^ l.length * κ c' = leSum g l + κ c
  | [], c, _ => ⟨c, by simp [carryChain, leValue, leSum]⟩
  | a :: as, c, hc => by
    obtain ⟨h1, h2⟩ := hf c a hc
    obtain ⟨c', h⟩ := leValue_carryChain f g κ P hf as (f c a).2 h2
    refine ⟨c', ?_⟩
    simp only [carryChain, leValue, leSum, List.length_cons, pow_succ]
    push_cast
    linear_combination h1 + 256 * h

/-- The same, for sixteen bytes put together: the last carry is discarded, so the sum is taken modulo 2^128. -/
theorem ofBytes_carryChain {α : Type} (f : Nat → α → Byte × Nat) (g : α → Int) (κ : Nat → Int) (P : Nat → Prop)
    (hf : ∀ c a, P c → ((f c a).1.toNat : Int) + 256 * κ (f c a).2 = g a + κ c ∧ P (f c a).2)
    (l : List α) (hl : l.length = 16) (c : Nat) (hc : P c) :
    ofBytes (carryChain f c l) = BitVec.ofInt 128 (leSum g l + κ c) := by
  obtain ⟨c', h⟩ := leValue_carryChain f g κ P hf l c hc
  rw [← h, hl, ofBytes]
  apply BitVec.eq_of_toInt_eq
  rw [BitVec.toInt_ofInt, BitVec.toInt_ofNat', show (256 : Int) ^ 16 = ((2 ^ 128 : Nat) : Int) by norm_num, mul_comm,
    Int.add_mul_bmod_self_right]

theorem sumStep_spec (c : Nat) (p : Byte × Byte) :
    ((sumStep c p).1.toNat : Int) + 256 * ((sumStep c p).2 : Int) = (p.1.toNat : Int) + 1 * (p.2.toNat : Int) + (c : Int) := by
  simp only [sumStep, BitVec.toNat_ofNat, Nat.shiftRight_eq_div_pow]; omega

theorem comp2Step_spec (c : Nat) (a : Byte) :
    ((comp2Step c a).1.toNat : Int) + 256 * ((comp2Step c a).2 : Int) = 255 - (a.toNat : Int) + (c : Int) := by
  have := a.isLt
  simp only [comp2Step, BitVec.toNat_ofNat, Nat.shiftRight_eq_div_pow]; omega

/-- A borrow of at most 1 keeps at most 1, and counts negatively. -/
theorem subStep_spec (c : Nat) (p : Byte × Byte) (hc : c ≤ 1) :
    ((subStep c p).1.toNat : Int) + 256 * (-((subStep c p).2 : Int)) = (p.1.toNat : Int) + (-1) * (p.2.toNat : Int) + -(c : Int)
      ∧ (subStep c p).2 ≤ 1 := by
  have := p.1.isLt
  have := p.2.isLt
  simp only [subStep]
  split <;> simp only [BitVec.toNat_ofInt] <;> omega

/-- A carry below `2^bi` stays below `2^bi` for a bit shift of at most 8, so the OR of R83 is an addition. -/
theorem shlStep_spec (bi c : Nat) (t : Byte) (hc : c < 2 ^ bi) :
    ((shlStep bi c t).1.toNat : Int) + 256 * ((shlStep bi c t).2 : Int) = 2 ^ bi * (t.toNat : Int) + (c : Int)
      ∧ (shlStep bi c t).2 < 2 ^ bi := by
  have hw : t.toNat <<< bi ||| c = 2 ^ bi * t.toNat + c := by
    rw [Nat.shiftLeft_eq, mul_comm]; exact (Nat.two_pow_add_eq_or_of_lt hc _).symm
  have ht := t.isLt
  have hlt : 2 ^ bi * t.toNat + c < 2 ^ bi * 256 := by nlinarith
  simp only [shlStep, hw, BitVec.toNat_ofNat, Nat.shiftRight_eq_div_pow]
  refine ⟨?_, by omega⟩
  have hdm := Nat.mod_add_div (2 ^ bi * t.toNat + c) 256
  exact_mod_cast hdm

/-- One byte of the descending pass, as a number. -/
theorem shrStep_spec (bi c : Nat) (t : Byte) (hbi : bi ≤ 8) (hc : c < 2 ^ bi) :
    (shrStep bi c t).1.toNat = t.toNat / 2 ^ bi + c * 2 ^ (8 - bi) ∧ (shrStep bi c t).2 = t.toNat % 2 ^ bi := by
  have h2 : 2 ^ bi * 2 ^ (8 - bi) = 256 := by rw [← pow_add, show bi + (8 - bi) = 8 by omega]; rfl
  have ht : t.toNat / 2 ^ bi < 2 ^ (8 - bi) := by
    rw [Nat.div_lt_iff_lt_mul (by positivity), mul_comm, h2]; exact t.isLt
  have hcs : c * 2 ^ (8 - bi) < 256 := by rw [← h2]; exact Nat.mul_lt_mul_of_pos_right hc (by positivity)
  have hand : c <<< (8 - bi) &&& 0xFF = c * 2 ^ (8 - bi) := by
    rw [Nat.shiftLeft_eq, show (0xFF : Nat) = 2 ^ 8 - 1 by rfl, Nat.and_two_pow_sub_one_eq_mod]
    exact Nat.mod_eq_of_lt hcs
  have hor : t.toNat / 2 ^ bi ||| c * 2 ^ (8 - bi) = t.toNat / 2 ^ bi + c * 2 ^ (8 - bi) := by
    rw [Nat.or_comm, mul_comm, ← Nat.two_pow_add_eq_or_of_lt ht, add_comm]
  have hsum : t.toNat / 2 ^ bi + c * 2 ^ (8 - bi) < 256 := by
    have : (c + 1) * 2 ^ (8 - bi) ≤ 2 ^ bi * 2 ^ (8 - bi) := Nat.mul_le_mul_right _ hc
    nlinarith
  simp only [shrStep, Nat.shiftRight_eq_div_pow, hand, hor, BitVec.toNat_ofNat, Nat.one_shiftLeft,
    Nat.and_two_pow_sub_one_eq_mod, and_true]
  exact Nat.mod_eq_of_lt hsum

/-- The descending chain, most significant byte first, shifts the whole number right by `bi`, the seed entering at the top. -/
theorem leValue_shrChain (bi : Nat) (hbi : bi ≤ 8) : ∀ (l : List Byte) (c : Nat), c < 2 ^ bi →
    leValue (carryChain (shrStep bi) c l).reverse = (c * 256 ^ l.length + leValue l.reverse) / 2 ^ bi
  | [], c, hc => by simp [carryChain, leValue, Nat.div_eq_of_lt hc]
  | t :: ts, c, hc => by
    obtain ⟨h1, h2⟩ := shrStep_spec bi c t hbi hc
    have ih := leValue_shrChain bi hbi ts _ (h2 ▸ Nat.mod_lt t.toNat (by positivity : 0 < 2 ^ bi))
    have h256 : 2 ^ bi * 2 ^ (8 - bi) = 256 := by rw [← pow_add, show bi + (8 - bi) = 8 by omega]; rfl
    have hdm := Nat.div_add_mod t.toNat (2 ^ bi)
    have hin : c * 256 ^ (ts.length + 1) + (leValue ts.reverse + 256 ^ ts.length * (t.toNat + 256 * 0)) =
        2 ^ bi * (256 ^ ts.length * (t.toNat / 2 ^ bi + c * 2 ^ (8 - bi))) +
          (t.toNat % 2 ^ bi * 256 ^ ts.length + leValue ts.reverse) := by
      have e1 : c * 256 ^ (ts.length + 1) = 256 ^ ts.length * c * (2 ^ bi * 2 ^ (8 - bi)) := by rw [h256]; ring
      have e2 : 256 ^ ts.length * t.toNat =
          256 ^ ts.length * (2 ^ bi * (t.toNat / 2 ^ bi)) + 256 ^ ts.length * (t.toNat % 2 ^ bi) := by rw [← mul_add, hdm]
      linear_combination e1 + e2
    simp only [carryChain, List.reverse_cons, leValue_append, List.length_reverse, length_carryChain, leValue, h1,
      List.length_cons]
    rw [ih, h2, hin, Nat.mul_add_div (by positivity)]
    ring

end Sys2Proof.Machine
end

