-- ==== Sys2Proof/Laws/State.lean ====
section
/-! SUPPORT. The small laws of the state: one per field per update, and what each named operation of Machine/Ops.lean does to a
slot read, so that no proof unfolds a record update. -/

namespace Sys2Proof.Machine

@[simp] theorem State.setSlot_x (s : State) (i : Slot) (v : Int128) : (s.setSlot i v).x = s.x.set i v := rfl
@[simp] theorem State.setSlot_port (s : State) (i : Slot) (v : Int128) : (s.setSlot i v).port = s.port := rfl
@[simp] theorem State.setSlot_answers (s : State) (i : Slot) (v : Int128) : (s.setSlot i v).answers = s.answers := rfl
@[simp] theorem State.answer_x (s : State) (a : HostAnswer) : (s.answer a).x = s.x := rfl
@[simp] theorem State.answer_port (s : State) (a : HostAnswer) : (s.answer a).port = s.port := rfl
@[simp] theorem State.answer_answers (s : State) (a : HostAnswer) : (s.answer a).answers = s.answers ++ [a] := rfl
@[simp] theorem State.present_x (s : State) (e : HostEvent) : (s.present e).x = s.x := rfl
@[simp] theorem State.present_port (s : State) (e : HostEvent) : (s.present e).port = e :: s.port := rfl
@[simp] theorem State.present_answers (s : State) (e : HostEvent) : (s.present e).answers = s.answers := rfl

/-- A slot read sees the value just written to that slot. -/
@[simp] theorem State.slot_setSlot_same (s : State) (i : Slot) (v : Int128) : (s.setSlot i v).slot i = v := by
  simp [State.slot, State.setSlot]

/-- A slot write leaves every other slot alone. -/
@[simp] theorem State.slot_setSlot_ne (s : State) (i j : Slot) (v : Int128) (h : j ≠ i) :
    (s.setSlot i v).slot j = s.slot j := by
  simp only [State.slot, State.setSlot, Fin.getElem_fin]
  exact Vector.getElem_set_ne _ _ (fun e => h (Fin.ext e.symm))

@[simp] theorem State.slot_answer (s : State) (a : HostAnswer) (i : Slot) : (s.answer a).slot i = s.slot i := rfl
@[simp] theorem State.slot_present (s : State) (e : HostEvent) (i : Slot) : (s.present e).slot i = s.slot i := rfl

/-- A slot read depends on the operand store alone. -/
theorem State.slot_congr {s t : State} (h : s.x = t.x) (i : Slot) : s.slot i = t.slot i := by
  simp [State.slot, h]

/-- Two stores with equal slots are equal. -/
theorem store_ext {x y : Vector Int128 16} (h : ∀ i : Slot, x[i] = y[i]) : x = y := by
  ext i hi
  rw [show x[i] = y[i] from h ⟨i, hi⟩]

/-- Two states with equal slots and an equal host side are equal. -/
theorem State.ext_slots {s t : State} (hx : ∀ i, s.slot i = t.slot i) (hp : s.port = t.port) (ha : s.answers = t.answers) :
    s = t := by
  cases s; cases t
  simp only [State.mk.injEq]
  exact ⟨store_ext hx, hp, ha⟩

/-- Taking the next transaction: none is left. -/
theorem State.takeEvent_of_nil {s : State} (h : s.port = []) : s.takeEvent = none := by
  simp [State.takeEvent, h]

/-- Taking the next transaction: it is the head of the list, and only the list changes. -/
theorem State.takeEvent_of_cons {s : State} {e : HostEvent} {rest : List HostEvent} (h : s.port = e :: rest) :
    s.takeEvent = some (e, { s with port := rest }) := by
  simp [State.takeEvent, h]

@[simp] theorem State.takeEvent_present (s : State) (e : HostEvent) : (s.present e).takeEvent = some (e, s) := rfl

end Sys2Proof.Machine
end

