-- ==== Sys2Proof/Laws/Operands.lean ====
section
/-! SUPPORT. What the three operand shapes of Machine/Operands.lean can do: they always answer a next state, they write the destination
whole, and they leave everything else as it was. A proof cites these and unfolds no shape. -/

namespace Sys2Proof.Machine

/-- Every meaning is one of these: if a shape answers, it answers the state with its one slot written. -/
@[simp] theorem writeResult_eq (d : Slot) (r : Int128) (s : State) : writeResult d r s = .next (s.setSlot d r) := rfl

@[simp] theorem unary_eq (f : Int128 → Int128) (d a : Slot) (s : State) :
    unary f d a s = .next (s.setSlot d (f (s.slot a))) := rfl

@[simp] theorem binary_eq (f : Int128 → Int128 → Int128) (d a b : Slot) (s : State) :
    binary f d a b s = .next (s.setSlot d (f (s.slot a) (s.slot b))) := rfl

/-- A slot write has the frame of a command. -/
theorem onlySlotWritten_setSlot (d : Slot) (r : Int128) (s : State) : OnlySlotWritten d r s (s.setSlot d r) :=
  ⟨by simp, fun _ h => by simp [h], by simp, by simp⟩

/-- The converse: the frame fixes the state. -/
theorem OnlySlotWritten.eq_setSlot {d : Slot} {r : Int128} {s t : State} (h : OnlySlotWritten d r s t) : t = s.setSlot d r := by
  obtain ⟨hd, ho, hp, ha⟩ := h
  refine State.ext_slots (fun i => ?_) hp ha
  by_cases e : i = d
  · subst e; simp [hd]
  · simp [ho i e, e]

/-- What an instruction writes into its destination, by the datapath function of its own. -/
def resultOf (i : Instr) (s : State) : Int128 :=
  match i with
  | .val _ imm => fVal imm
  | .comp2 _ a => fComp2 (s.slot a)
  | .sum _ a b => fSum (s.slot a) (s.slot b)
  | .sub _ a b => fSub (s.slot a) (s.slot b)
  | .shl _ a n => fShl (s.slot a) n
  | .shr _ a n => fShr (s.slot a) n
  | .sar _ a n => fSar (s.slot a) n
  | .mul _ a b => fMul (s.slot a) (s.slot b)

/-- Everything `exec` can do, said once: it answers a next state with the destination slot written. -/
theorem exec_eq (i : Instr) (s : State) : exec i s = .next (s.setSlot i.dest (resultOf i s)) := by
  cases i <;> rfl

/-- A result depends on the source slots alone. -/
theorem resultOf_congr {i : Instr} {s t : State} (h : ∀ j ∈ i.sources, s.slot j = t.slot j) : resultOf i s = resultOf i t := by
  cases i <;> simp_all [resultOf, Instr.sources]

end Sys2Proof.Machine
end

