-- ==== Sys2Proof/Laws/PerInstr.lean ====
section
/-! SUPPORT. Laws of the instructions as syntax, one lemma per constructor. -/

namespace Sys2Proof

/-- The number a command word put together from its fields is (spec/30_encoding.md R58). -/
theorem toNat_commandWord (op : Opcode) (d ra rb : Slot) :
    (commandWord op d ra rb).toNat = 0x1000 * op.bits.toNat + 0x100 * d.val + 0x10 * ra.val + rb.val := by
  have := op.bits.isLt
  rw [commandWord, BitVec.toNat_ofNat]
  omega

/-- The field `op` of a command word put together from its fields (R51). -/
@[simp] theorem fieldOp_commandWord (op : Opcode) (d ra rb : Slot) : fieldOp (commandWord op d ra rb) = op.bits := by
  have := op.bits.isLt
  apply BitVec.eq_of_toNat_eq
  rw [fieldOp, BitVec.extractLsb'_toNat, toNat_commandWord, Nat.shiftRight_eq_div_pow]
  omega

/-- The field `d` of a command word put together from its fields (R51). -/
@[simp] theorem fieldD_commandWord (op : Opcode) (d ra rb : Slot) : fieldD (commandWord op d ra rb) = d := by
  apply Fin.ext
  rw [fieldD, BitVec.val_toFin, BitVec.extractLsb'_toNat, toNat_commandWord, Nat.shiftRight_eq_div_pow]
  omega

/-- The field `ra` of a command word put together from its fields (R51). -/
@[simp] theorem fieldRa_commandWord (op : Opcode) (d ra rb : Slot) : fieldRa (commandWord op d ra rb) = ra := by
  apply Fin.ext
  rw [fieldRa, BitVec.val_toFin, BitVec.extractLsb'_toNat, toNat_commandWord, Nat.shiftRight_eq_div_pow]
  omega

/-- The field `rb` of a command word put together from its fields (R51). -/
@[simp] theorem fieldRb_commandWord (op : Opcode) (d ra rb : Slot) : fieldRb (commandWord op d ra rb) = rb := by
  apply Fin.ext
  rw [fieldRb, BitVec.val_toFin, BitVec.extractLsb'_toNat, toNat_commandWord, Nat.shiftRight_eq_div_pow]
  omega

/-- The spare bit of a command word put together from its fields (R51). -/
theorem spareBit_commandWord (op : Opcode) (d ra rb : Slot) : (commandWord op d ra rb).getLsbD 15 = false := by
  have := op.bits.isLt
  rw [BitVec.getLsbD, toNat_commandWord]
  exact Nat.testBit_lt_two_pow (by omega)

/-- The opcode map has one operation for each value (R52). -/
@[simp] theorem ofBits_bits (op : Opcode) : Opcode.ofBits op.bits = op := by cases op <;> rfl

@[simp] theorem bits_ofBits (b : BitVec 3) : (Opcode.ofBits b).bits = b := by revert b; decide

end Sys2Proof

namespace Sys2Proof.Laws.EncodesOwnOpcode

/-- An assembler writes the instruction's own opcode value in bits 14:12 (R52) and 0 in the spare bit 15 (R51, R55). -/
def Statement (i : Instr) : Prop :=
  fieldOp (encode i).1 = i.opcode.bits ∧ (encode i).1.getLsbD 15 = false

theorem val (d : Slot) (imm : Int) : Statement (.val d imm) :=
  ⟨fieldOp_commandWord .val d 0 0, spareBit_commandWord .val d 0 0⟩
theorem comp2 (d a : Slot) : Statement (.comp2 d a) :=
  ⟨fieldOp_commandWord .comp2 d a 0, spareBit_commandWord .comp2 d a 0⟩
theorem sum (d a b : Slot) : Statement (.sum d a b) :=
  ⟨fieldOp_commandWord .sum d a b, spareBit_commandWord .sum d a b⟩
theorem sub (d a b : Slot) : Statement (.sub d a b) :=
  ⟨fieldOp_commandWord .sub d a b, spareBit_commandWord .sub d a b⟩
theorem shl (d a : Slot) (n : Int) : Statement (.shl d a n) :=
  ⟨fieldOp_commandWord .shl d a 0, spareBit_commandWord .shl d a 0⟩
theorem shr (d a : Slot) (n : Int) : Statement (.shr d a n) :=
  ⟨fieldOp_commandWord .shr d a 0, spareBit_commandWord .shr d a 0⟩
theorem sar (d a : Slot) (n : Int) : Statement (.sar d a n) :=
  ⟨fieldOp_commandWord .sar d a 0, spareBit_commandWord .sar d a 0⟩
theorem mul (d a b : Slot) : Statement (.mul d a b) :=
  ⟨fieldOp_commandWord .mul d a b, spareBit_commandWord .mul d a b⟩

end Sys2Proof.Laws.EncodesOwnOpcode
end

