-- ==== Sys2Proof/Laws/Step.lean ====
section
/-! SUPPORT. Everything a step can do, one case per transaction. -/

namespace Sys2Proof.Machine

/-- With nothing to perform the core is idle. -/
theorem step_of_nil {s : State} (h : s.port = []) : step s = .next s := by
  simp [step, State.takeEvent_of_nil h]

/-- A command is taken off the list and performed. -/
theorem step_of_command {s : State} {cw : CommandWord} {sc : Scalar} {rest : List HostEvent}
    (h : s.port = .command cw sc :: rest) :
    step s = .next (({ s with port := rest } : State).setSlot (decode cw sc).dest (resultOf (decode cw sc) s)) := by
  simp only [step, State.takeEvent_of_cons h, exec_eq]
  rw [resultOf_congr (s := { s with port := rest }) (t := s) (fun _ _ => rfl)]

/-- A host byte write. -/
theorem step_of_writeByte {s : State} {i : Slot} {k : ByteIndex} {v : Byte} {rest : List HostEvent}
    (h : s.port = .writeByte i k v :: rest) :
    step s = .next (({ s with port := rest } : State).setSlot i (setByte (s.slot i) k v)) := by
  simp only [step, State.takeEvent_of_cons h]; rfl

/-- A host slot write. -/
theorem step_of_writeSlot {s : State} {i : Slot} {w : Int128} {rest : List HostEvent} (h : s.port = .writeSlot i w :: rest) :
    step s = .next (({ s with port := rest } : State).setSlot i w) := by
  simp only [step, State.takeEvent_of_cons h]; rfl

/-- A host byte read. -/
theorem step_of_readByte {s : State} {i : Slot} {k : ByteIndex} {rest : List HostEvent} (h : s.port = .readByte i k :: rest) :
    step s = .next (({ s with port := rest } : State).answer (.byte (byteOf (s.slot i) k.val))) := by
  simp only [step, State.takeEvent_of_cons h]; rfl

/-- A host slot read. -/
theorem step_of_readSlot {s : State} {i : Slot} {rest : List HostEvent} (h : s.port = .readSlot i :: rest) :
    step s = .next (({ s with port := rest } : State).answer (.slot (s.slot i))) := by
  simp only [step, State.takeEvent_of_cons h]; rfl

/-- A reset. -/
theorem step_of_reset {s : State} {rest : List HostEvent} (h : s.port = .reset :: rest) :
    step s = .next { s with port := rest } := by
  simp only [step, State.takeEvent_of_cons h]; rfl

/-- A run of `k + 1` steps of any machine goes on from the first step's next state. -/
theorem run_succ_of_next (M : Host.Core) {k : Nat} {s t : M.State} (h : M.step s = .next t) : M.run (k + 1) s = M.run k t := by
  rw [Host.Core.run, h]

/-- The same, of this machine. -/
theorem run_succ_of_step {k : Nat} {s t : State} (h : step s = .next t) :
    Host.Core.run core (k + 1) s = Host.Core.run core k t :=
  run_succ_of_next core h

/-- A run of no steps. -/
theorem run_zero (s : State) : Host.Core.run core 0 s = .next s := rfl

end Sys2Proof.Machine
end

