-- ==== Sys2Proof/Tests/Slice0.lean ====
section
/-! SUPPORT. The model's own tests: ill-formed terms the checks refuse, command words written out from spec/30_encoding.md R51 and R52,
one or two steps of each command with results taken from spec/95_test_vectors.md, the host's accesses, and for every statement with
hypotheses a witness that meets them. -/

namespace Sys2Proof.Tests
open Sys2Proof Sys2Proof.Machine

/-! ### Well-formedness (R58) -/

theorem test_val_immediate_above_range_refused : (Instr.val 1 (2 ^ 63)).wellFormed = false := by decide
theorem test_val_immediate_below_range_refused : (Instr.val 1 (-(2 ^ 63) - 1)).wellFormed = false := by decide
theorem test_shl_count_above_range_refused : (Instr.shl 2 1 (2 ^ 63)).wellFormed = false := by decide
theorem test_shr_count_below_range_refused : (Instr.shr 2 1 (-(2 ^ 63) - 1)).wellFormed = false := by decide
theorem test_sar_count_above_range_refused : (Instr.sar 2 1 (2 ^ 64)).wellFormed = false := by decide
theorem test_extreme_immediates_accepted :
    (Instr.val 15 (2 ^ 63 - 1)).wellFormed = true ∧ (Instr.val 2 (-(2 ^ 63))).wellFormed = true := by decide

/-! ### Decoding: `zooo dddd aaaa bbbb` (R51), the rows of spec/95_test_vectors.md 2.8 -/

theorem test_decode_val : decode 0b0000001000000000#16 0x8000000000000000#64 = .val 2 (-(2 ^ 63)) := by decide
theorem test_decode_comp2 : decode 0b0001011101110000#16 0#64 = .comp2 7 7 := by decide
theorem test_decode_sum : decode 0b0010000100010001#16 0#64 = .sum 1 1 1 := by decide
theorem test_decode_sub : decode 0b0011001100010010#16 0#64 = .sub 3 1 2 := by decide
theorem test_decode_shl : decode 0b0100001000010000#16 8#64 = .shl 2 1 8 := by decide
theorem test_decode_shr : decode 0b0101010101100000#16 0x7F#64 = .shr 5 6 127 := by decide
theorem test_decode_sar : decode 0b0110001000010000#16 4#64 = .sar 2 1 4 := by decide
theorem test_decode_mul : decode 0b0111110011001100#16 0#64 = .mul 12 12 12 := by decide
theorem test_decode_ignores_spare_bit_rb_and_scalar_class :
    decode 0b1100001000011111#16 8#64 = .shl 2 1 8 ∧ decode 0x01AB#16 0xFFFFFFFFFFFFFFFE#64 = .val 1 (-2) ∧
    decode 0x2312#16 0xDEADBEEFDEADBEEF#64 = .sum 3 1 2 := by decide
/-- The word the spec contradicts itself on (log entry 12): the row of spec/95_test_vectors.md 2.8, against R55's example. -/
theorem test_decode_8312 : decode 0x8312#16 0#64 = .val 3 0 := by decide
theorem test_encode_rows :
    encode (.val 1 (-5)) = (0x0100#16, 0xFFFFFFFFFFFFFFFB#64) ∧ encode (.comp2 2 1) = (0x1210#16, 0#64) ∧
    encode (.sum 3 1 2) = (0x2312#16, 0#64) ∧ encode (.sub 15 0 15) = (0x3F0F#16, 0#64) ∧
    encode (.shl 4 4 (-1)) = (0x4440#16, 0xFFFFFFFFFFFFFFFF#64) ∧ encode (.shr 5 6 127) = (0x5560#16, 0x7F#64) ∧
    encode (.sar 9 10 128) = (0x69A0#16, 0x80#64) ∧ encode (.mul 12 12 12) = (0x7CCC#16, 0#64) := by decide
theorem test_table_word : decodeTableWord 16 0x7312 = some (.mul 3 1 2) := by decide

/-! ### The assembler (R58, R59) -/

theorem test_assemble_both_names :
    assemble "sum" [.slot 3, .slot 1, .slot 2] = some (0x2312#16, 0#64) ∧
    assemble "add" [.slot 3, .slot 1, .slot 2] = some (0x2312#16, 0#64) := by decide
theorem test_assemble_pattern_is_signed :
    assemble "shl" [.slot 4, .slot 4, .pattern 0xFFFFFFFFFFFFFFFF] = some (0x4440#16, 0xFFFFFFFFFFFFFFFF#64) := by decide
theorem test_assemble_errors :
    assemble "val" [.slot 1, .pattern (2 ^ 64)] = none ∧
    assemble "val" [.slot 1, .decimal (2 ^ 63)] = none ∧ assemble "val" [.slot 16, .decimal 0] = none ∧
    assemble "div" [.slot 1, .slot 2, .slot 3] = none := by decide

/-! ### One step of each command, on three slots: `A` and `B` of spec/95_test_vectors.md 2.9 and the poison pattern -/

/-- A store with `a` in slot 1, `b` in slot 2 and poison elsewhere, and one command about to be performed. -/
def startWith (a b : Int128) (cw : CommandWord) (sc : Scalar) : State :=
  { x := Vector.ofFn fun i => if i = 1 then a else if i = 2 then b else 0xA5A5A5A5A5A5A5A5A5A5A5A5A5A5A5A5
    port := [.command cw sc]
    answers := [] }

/-- Slot `i` after one step. -/
def slotAfter (s : State) (i : Slot) : Option Int128 :=
  match step s with
  | .next t => some (t.slot i)
  | .fault _ => none
  | .refused _ => none

/-- `A` of spec/95_test_vectors.md 2.5. -/
abbrev vecA : Int128 := 0xFEDCBA9876543210EFCDAB8967452301
/-- The value of `x[2]` in spec/95_test_vectors.md 2.9. -/
abbrev vecB : Int128 := 0x0123456789ABCDEF1032547698BADCFF

theorem test_val_minus_two :
    slotAfter (startWith vecA vecB 0x0100 0xFFFFFFFFFFFFFFFE) 1 = some 0xFFFFFFFFFFFFFFFFFFFFFFFFFFFFFFFE := by decide
theorem test_val_largest :
    slotAfter (startWith vecA vecB 0x0F00 0x7FFFFFFFFFFFFFFF) 15 = some 0x00000000000000007FFFFFFFFFFFFFFF := by decide
theorem test_comp2_in_place : slotAfter (startWith vecA vecB 0x1110 0) 1 = some vecB := by decide
theorem test_comp2_carry_stops_at_byte_1 :
    slotAfter (startWith 0x100 vecB 0x1210 0) 2 = some 0xFFFFFFFFFFFFFFFFFFFFFFFFFFFFFF00 := by decide
theorem test_sum_carry_out_discarded : slotAfter (startWith vecA vecB 0x2212 0) 2 = some 0 := by decide
theorem test_sum_doubles_in_place :
    slotAfter (startWith vecA vecB 0x2111 0) 1 = some 0xFDB97530ECA86421DF9B5712CE8A4602 := by decide
theorem test_sub_destination_is_subtrahend :
    slotAfter (startWith vecA vecB 0x3212 0) 2 = some 0xFDB97530ECA86421DF9B5712CE8A4602 := by decide
theorem test_sub_borrows_through : slotAfter (startWith 7 12 0x3312 0) 3 = some 0xFFFFFFFFFFFFFFFFFFFFFFFFFFFFFFFB := by decide
theorem test_shl_12_in_place :
    slotAfter (startWith vecA vecB 0x4110 12) 1 = some 0xCBA9876543210EFCDAB8967452301000 := by decide
theorem test_shl_count_uses_all_64_bits : slotAfter (startWith vecA vecB 0x4310 0x0000000100000000) 3 = some 0 := by decide
theorem test_shr_68_in_place :
    slotAfter (startWith vecA vecB 0x5110 68) 1 = some 0x00000000000000000FEDCBA987654321 := by decide
theorem test_shr_negative_count_copies : slotAfter (startWith vecA vecB 0x5310 0xFFFFFFFFFFFFFFFF) 3 = some vecA := by decide
theorem test_sar_12_in_place :
    slotAfter (startWith vecA vecB 0x6110 12) 1 = some 0xFFFFEDCBA9876543210EFCDAB8967452 := by decide
theorem test_sar_200_fills_with_sign :
    slotAfter (startWith vecA vecB 0x6310 200) 3 = some 0xFFFFFFFFFFFFFFFFFFFFFFFFFFFFFFFF := by decide
theorem test_mul_destination_is_multiplier :
    slotAfter (startWith vecA vecB 0x7212 0) 2 = some 0x5298B0217533E61403FA7E174EACB9FF := by decide +kernel
theorem test_mul_squares_in_place :
    slotAfter (startWith vecA vecB 0x7111 0) 1 = some 0xAD674FDE8ACC19EBFC0581E8B1534601 := by decide +kernel
theorem test_other_slots_keep : slotAfter (startWith vecA vecB 0x2111 0) 2 = some vecB := by decide

/-- The first step after power-on performs the command placed for it, whatever the slots hold. -/
theorem test_first_step_after_reset :
    slotAfter (State.reset.withFetchWord 16 0x0300) 3 = some 0 := by decide

/-- The parameters of R6 and R7 are the widths the types have. -/
theorem test_parameters_are_the_types :
    Int128 = BitVec Config.width ∧ Config.width = 8 * Config.nbytes ∧ Scalar = BitVec Config.scalarWidth ∧
    CommandWord = BitVec Config.commandWordLength ∧ Slot = Fin Config.nslot ∧ ByteIndex = Fin Config.nbytes :=
  ⟨rfl, rfl, rfl, rfl, rfl, rfl⟩

/-! ### Host access (spec/95_test_vectors.md Program 4) -/

theorem test_host_writes_byte_15 :
    (hostWriteByte 1 15 0x80 (startWith 0 0 0 0)).slot 1 = 0x80000000000000000000000000000000 := by decide
theorem test_host_reads_byte_15 :
    (hostReadByte 1 15 (startWith 0x7FFFFFFFFFFFFFFFFFFFFFFFFFFFFFFF 0 0 0)).answers = [.byte 0x7F] := by decide

/-! ### Witnesses: for each statement with hypotheses, values that meet them all -/

/-- A state whose host presents the given transactions. -/
def presenting (es : List HostEvent) : State := { x := Vector.replicate 16 vecA, port := es, answers := [] }

theorem witness_DecodeOfEncodeIsIdentity :
    (Instr.val 1 (-(2 ^ 63))).wellFormed = true ∧ (Instr.sar 15 0 (2 ^ 63 - 1)).wellFormed = true ∧
    (Instr.mul 15 15 15).wellFormed = true := by decide
theorem witness_StepPerformsDecodedCommand : (presenting [.command 0xFFFF 5]).port = .command 0xFFFF 5 :: [] := rfl
theorem witness_ResultDependsOnSourcesOnly_two_sources :
    fieldOp 0x2312 = fieldOp 0xA501 ∧ (startWith 1 2 0 0).slot 1 = ((startWith 2 9 0 0).setSlot 0 1).slot 0 ∧
    (startWith 1 2 0 0).slot 2 = ((startWith 2 9 0 0).setSlot 0 1).slot 1 ∧ (Opcode.ofBits (fieldOp 0x2312)).usesScalar = false ∧
    fieldRa 0xA501 = 0 ∧ fieldRb 0xA501 = 1 ∧ fieldD 0x2312 ≠ fieldD 0xA501 := by decide
theorem witness_ResultDependsOnSourcesOnly_scalar :
    fieldOp 0x4310 = fieldOp 0x4520 ∧ (startWith 7 0 0 0).slot 1 = (startWith 0 7 0 0).slot 2 ∧
    (Opcode.ofBits (fieldOp 0x4310)).usesRb = false ∧ (12 : Scalar) = 12 := by decide
theorem witness_AliasingDoesNotChangeResult :
    fieldOp 0x2312 = fieldOp 0x2112 ∧ fieldRa 0x2312 = fieldRa 0x2112 ∧ fieldRb 0x2312 = fieldRb 0x2112 ∧
    fieldD 0x2312 ≠ fieldD 0x2112 := by decide
theorem witness_DisjointTransactionsCommute :
    ¬ (HostEvent.command 0x2312 0).conflict (.writeSlot 4 7) ∧ ¬ (HostEvent.readByte 5 0).conflict (.readSlot 5) ∧
    (HostEvent.command 0x2312 0).conflict (.writeSlot 1 7) := by decide
theorem witness_StepKeepsUnnamedSlots :
    UnnamedSlotsKept (presenting [.reset]) (presenting [.reset]) ∧ step (presenting [.reset]) = .next (presenting []) :=
  ⟨⟨List.suffix_rfl, fun _ _ => rfl⟩, rfl⟩
theorem witness_a_slot_the_list_does_not_write : ∀ e ∈ (presenting [.readSlot 3]).port, e.writes ≠ some 3 := by decide
theorem witness_StepKeepsReadAccount :
    step (presenting [.readSlot 3]) = .next { presenting [] with answers := [.slot vecA] } := rfl
theorem witness_IdleCoreKeepsState : (presenting []).port = [] := rfl
/-- For `ValWritesSignExtension`, `ConstructBytes`, at both ends of the range and on both sides of zero. -/
theorem witness_native_integers :
    (-(2 ^ 63) ≤ (-(2 ^ 63) : Int) ∧ (-(2 ^ 63) : Int) < 2 ^ 63 ∧ ¬ (0 : Int) ≤ -(2 ^ 63)) ∧
    (-(2 ^ 63) ≤ (2 ^ 63 - 1 : Int) ∧ (2 ^ 63 - 1 : Int) < 2 ^ 63 ∧ (0 : Int) ≤ 2 ^ 63 - 1) := by decide
theorem witness_ConstructRoundTripsAtEveryWidth :
    ((8 : Nat) ∣ 8 ∧ 8 ≤ 8 ∧ 8 ≤ 120 ∧ -(2 ^ (8 - 1)) ≤ (-128 : Int) ∧ (-128 : Int) < 2 ^ (8 - 1)) ∧
    ((8 : Nat) ∣ 120 ∧ 8 ≤ 120 ∧ 120 ≤ 120 ∧ -(2 ^ (120 - 1)) ≤ (2 ^ 119 - 1 : Int) ∧ (2 ^ 119 - 1 : Int) < 2 ^ (120 - 1)) := by decide
theorem witness_ConstructImage :
    (-(2 ^ 63) ≤ (-1 : Int) ∧ (-1 : Int) < 2 ^ 63 ∧ fVal (-1) = fVal (-1)) ∧
    (∀ k, k < 16 → 8 ≤ k → byteOf (fVal (-1)) k = if (byteOf (fVal (-1)) 7).getLsbD 7 then 0xFF else 0x00) := by decide
theorem witness_NegationLaws :
    (0x80000000000000000000000000000001#128).toInt ≠ -(2 ^ 127) ∧ (0x80000000000000000000000000000000#128).toInt = -(2 ^ 127) := by
  decide
theorem witness_AdditionLaws_in_range :
    -(2 ^ 127) ≤ (0x7FFFFFFFFFFFFFFFFFFFFFFFFFFFFFFE#128).toInt + (1#128).toInt ∧
    (0x7FFFFFFFFFFFFFFFFFFFFFFFFFFFFFFE#128).toInt + (1#128).toInt < 2 ^ 127 := by decide
theorem witness_AdditionLaws_out_of_range :
    (0x80000000000000000000000000000000#128).toInt + (0xFFFFFFFFFFFFFFFFFFFFFFFFFFFFFFFF#128).toInt < -(2 ^ 127) ∧
    2 ^ 127 ≤ (0x7FFFFFFFFFFFFFFFFFFFFFFFFFFFFFFF#128).toInt + (1#128).toInt := by decide
/-- For `ShiftByZeroOrLessCopies`, `ShiftByWidthOrMoreFills`, `ShiftWordForms`, `ShiftAndAddInvariant`, `RingLaws`. -/
theorem witness_shift_counts :
    (0 : Int) ≤ 0 ∧ -(2 ^ 63) ≤ (0 : Int) ∧ (128 : Int) ≤ 128 ∧ (0 < 127 ∧ 127 < 128 ∧ 128 - 127 ≤ 127) ∧
    (0 < 1 ∧ 1 < 128 ∧ 125 < 127 - 1 ∧ ¬ 126 < 127 - 1) ∧ (-1 : Int) < 0 ∧ 128 ≤ 128 ∧ 62 < 63 := by decide
theorem witness_LogicalAgainstArithmeticShift :
    isNegative vecA = true ∧ (0 : Int) < 1 ∧ (0 : Int) ≤ 0 ∧ isNegative vecB = false := by decide
theorem witness_ShiftsAgainstMultiplyAndNative : (0 : Int) ≤ 2 ^ 63 - 1 ∧ (2 ^ 63 - 1 : Int) < 2 ^ 63 ∧ 62 < 63 := by decide
theorem witness_HostWrites : (List.finRange 16).reverse.Perm (List.finRange 16) := List.reverse_perm _
theorem witness_HostAndCommandsShareBytes :
    (presenting [.command 0x2312 0, .readByte 3 15]).port = .command 0x2312 0 :: .readByte (fieldD 0x2312) 15 :: [] ∧
    (presenting [.writeByte 1 15 0x80, .command 0x7311 0]).port = .writeByte 1 15 0x80 :: .command 0x7311 0 :: [] ∧
    fieldRa 0x7311 = 1 ∧ fieldRb 0x7311 = 1 := by decide
theorem witness_ResetKeepsEverySlot : (presenting [.reset]).port = .reset :: [] := rfl

end Sys2Proof.Tests
end

section
/-! The refinement of the host's list (spec/20_memory.md R36, spec/70_reset_and_hazards.md R114): one step agrees with the store and
answer semantics of Safety.lean on one transaction, and a run is that step along the list. -/

namespace Sys2Proof.Machine

@[simp] theorem dest_decode (cw : CommandWord) (sc : Scalar) : (decode cw sc).dest = fieldD cw := by
  unfold decode
  cases Opcode.ofBits (fieldOp cw) <;> rfl

/-- What a decoded command leaves in its destination is `EXEC` of R8 on its fields (R57). -/
@[simp] theorem resultOf_decode (cw : CommandWord) (sc : Scalar) (s : State) :
    resultOf (decode cw sc) s =
      datapath (Opcode.ofBits (fieldOp cw)) (s.slot (fieldRa cw)) (s.slot (fieldRb cw)) sc := by
  unfold decode
  cases Opcode.ofBits (fieldOp cw) <;> rfl

/-- One step takes the head off the host's list and has that transaction's effect on the store and on the answers, as the rules
give them without `step`. -/
theorem step_of_cons {s : State} {e : HostEvent} {rest : List HostEvent} (h : s.port = e :: rest) :
    step s = .next { x := e.onStore s.x, port := rest, answers := s.answers ++ e.answersOn s.x } := by
  cases e with
  | command cw sc =>
    rw [step_of_command h, dest_decode, resultOf_decode]
    simp [State.setSlot, State.slot, HostEvent.onStore, HostEvent.answersOn]
  | writeByte i k v =>
    rw [step_of_writeByte h]
    simp [State.setSlot, State.slot, HostEvent.onStore, HostEvent.answersOn]
  | writeSlot i w =>
    rw [step_of_writeSlot h]
    simp [State.setSlot, HostEvent.onStore, HostEvent.answersOn]
  | readByte i k => rw [step_of_readByte h]; rfl
  | readSlot i => rw [step_of_readSlot h]; rfl
  | reset =>
    rw [step_of_reset h]
    simp [HostEvent.onStore, HostEvent.answersOn]

/-- A run over a list of transactions ends in the list's store and answers, from whatever store and answers it starts with. -/
theorem run_length_port (es : List HostEvent) (x : Vector Int128 16) (as : List HostAnswer) :
    Host.Core.run core es.length { x := x, port := es, answers := as } =
      .next { x := storeAfter x es, port := [], answers := as ++ answersAfter x es } := by
  induction es generalizing x as with
  | nil => simp [run_zero, storeAfter, answersAfter]
  | cons e es ih =>
    rw [List.length_cons, run_succ_of_step (step_of_cons rfl), ih]
    simp [storeAfter, answersAfter]

/-- Settles O16, by induction on the host's list: `step_of_cons` performs its head, the rest runs from what the head left. -/
theorem runPerformsTransactionsInOrder : Obligations.RunPerformsTransactionsInOrder :=
  fun s => run_length_port s.port s.x s.answers

end Sys2Proof.Machine
end

section
/-! The frame of steps and runs (spec/10_state.md R17): a slot that no pending transaction writes keeps its value. The relation
`UnnamedSlotsKept` is reflexive and transitive and holds across one step, so it holds along every run. -/

namespace Sys2Proof.Machine

/-- A transaction leaves every slot but the one it writes alone (R17, R41, R57). -/
theorem HostEvent.getElem_onStore_of_writes_ne {e : HostEvent} {i : Slot} (h : e.writes ≠ some i) (x : Vector Int128 16) :
    (e.onStore x)[i] = x[i] := by
  have set_ne : ∀ {d : Slot} (v : Int128), some d ≠ some i → (x.set d v)[i] = x[i] := fun v hd =>
    Vector.getElem_set_ne _ _ fun hval => hd (congrArg some (Fin.ext hval))
  cases e with
  | command cw sc => exact set_ne _ (by simpa [HostEvent.writes] using h)
  | writeByte j k v => exact set_ne _ h
  | writeSlot j w => exact set_ne _ h
  | readByte j k => rfl
  | readSlot j => rfl
  | reset => rfl

theorem UnnamedSlotsKept.refl (s : State) : UnnamedSlotsKept s s :=
  ⟨List.suffix_rfl, fun _ _ => rfl⟩

/-- A later list is part of the earlier one, so a slot the earlier list does not write is not written by the later one either. -/
theorem UnnamedSlotsKept.trans {s₀ s t : State} (h : UnnamedSlotsKept s₀ s) (h' : UnnamedSlotsKept s t) :
    UnnamedSlotsKept s₀ t := by
  obtain ⟨hport, hslot⟩ := h
  obtain ⟨hport', hslot'⟩ := h'
  refine ⟨hport'.trans hport, fun i hi => ?_⟩
  calc t.slot i = s.slot i := hslot' i fun e he => hi e (hport.subset he)
    _ = s₀.slot i := hslot i hi

/-- Every step completes (R100) and keeps the slots that the transactions pending before it do not write. -/
theorem step_keeps_unnamed_slots (s : State) : ∃ t, step s = .next t ∧ UnnamedSlotsKept s t := by
  cases hp : s.port with
  | nil => exact ⟨s, step_of_nil hp, .refl s⟩
  | cons e rest =>
    refine ⟨_, step_of_cons hp, ?_, fun i hi => ?_⟩
    · exact hp ▸ List.suffix_cons e rest
    · exact HostEvent.getElem_onStore_of_writes_ne (hi e (by simp [hp])) s.x

/-- Settles O18: one step from `s` keeps the slots `s` does not name, and the relation is transitive. -/
theorem stepKeepsUnnamedSlots : Obligations.StepKeepsUnnamedSlots := by
  intro s₀ s t hs hstep
  obtain ⟨t', hstep', hkept⟩ := step_keeps_unnamed_slots s
  obtain rfl : t' = t := by simpa [hstep'] using hstep
  exact hs.trans hkept

/-- Settles O19, by induction on the number of steps: the first step keeps the slots, the rest runs from what it left. -/
theorem unnamedSlotsKeptAlongEveryRun : Obligations.UnnamedSlotsKeptAlongEveryRun := by
  intro k
  induction k with
  | zero => exact fun s => ⟨s, run_zero s, .refl s⟩
  | succ k ih =>
    intro s
    obtain ⟨s', hstep, hkept⟩ := step_keeps_unnamed_slots s
    obtain ⟨t, hrun, hkept'⟩ := ih s'
    exact ⟨t, (run_succ_of_step hstep).trans hrun, hkept.trans hkept'⟩

end Sys2Proof.Machine
end

section
/-! What a command's result depends on (spec/10_state.md R15): the datapath reads no argument that R53 does not list for its
operation. -/

namespace Sys2Proof.Machine

/-- `EXEC` of R8 ignores the arguments its operation does not use. -/
theorem datapath_congr {op : Opcode} {a a' b b' : Int128} {sc sc' : Scalar} (ha : op.usesRa = true → a = a')
    (hb : op.usesRb = true → b = b') (hsc : op.usesScalar = true → sc = sc') :
    datapath op a b sc = datapath op a' b' sc' := by
  cases op with
  | val => rw [hsc rfl]; rfl
  | comp2 => rw [ha rfl]; rfl
  | sum | sub | mul => rw [ha rfl, hb rfl]; rfl
  | shl | shr | sar => rw [ha rfl, hsc rfl]; rfl

/-- A decoded command completes and leaves `EXEC` of R8 on its fields in its destination (R57). -/
theorem exec_decode (cw : CommandWord) (sc : Scalar) (s : State) :
    exec (decode cw sc) s = .next (s.setSlot (fieldD cw)
      (datapath (Opcode.ofBits (fieldOp cw)) (s.slot (fieldRa cw)) (s.slot (fieldRb cw)) sc)) := by
  rw [exec_eq, dest_decode, resultOf_decode]

/-- Settles O13: both commands leave the datapath's value, and `datapath_congr` makes the two values equal. -/
theorem resultDependsOnSourcesOnly : Obligations.ResultDependsOnSourcesOnly := by
  intro s s' cw cw' sc sc' hop ha hb hsc
  refine ⟨_, _, exec_decode cw sc s, exec_decode cw' sc' s', ?_⟩
  rw [State.slot_setSlot_same, State.slot_setSlot_same, ← hop]
  exact datapath_congr ha hb hsc

end Sys2Proof.Machine
end

section
/-! The slots as bytes (spec/20_memory.md R31, R41): a write seen by every slot read, and the bytes that a series of host byte writes
leaves. -/

namespace Sys2Proof.Machine

/-- What every slot holds after a slot write. -/
theorem State.slot_setSlot (s : State) (i j : Slot) (v : Int128) :
    (s.setSlot i v).slot j = if j = i then v else s.slot j := by
  split
  case isTrue h => rw [h, State.slot_setSlot_same]
  case isFalse h => exact State.slot_setSlot_ne s i j v h

@[simp] theorem State.setSlot_slot (s : State) (i : Slot) : s.setSlot i (s.slot i) = s := by
  simp [State.setSlot, State.slot]

@[simp] theorem State.setSlot_setSlot (s : State) (i : Slot) (v w : Int128) :
    (s.setSlot i v).setSlot i w = s.setSlot i w := by
  simp [State.setSlot]

@[simp] theorem byteOf_setByte_same (v : Int128) (k : ByteIndex) (b : Byte) : byteOf (setByte v k b) k.val = b := by
  rw [byteOf_setByte v k b k.val k.isLt, if_pos rfl]

theorem byteOf_setByte_ne {j k : ByteIndex} (h : j ≠ k) (v : Int128) (b : Byte) :
    byteOf (setByte v k b) j.val = byteOf v j.val := by
  rw [byteOf_setByte v k b j.val j.isLt, if_neg (Fin.val_ne_of_ne h)]

/-- Two slots are equal exactly when their sixteen bytes are (R10, R42). -/
theorem eq_iff_byteOf_eq (v w : Int128) : v = w ↔ ∀ k : ByteIndex, byteOf v k.val = byteOf w k.val :=
  ⟨fun h _ => by rw [h], fun h => eq_of_byteOf_eq fun k hk => h ⟨k, hk⟩⟩

/-- `v` with the bytes of `w` written over it at the given indices, one after another. -/
def copyBytes (w v : Int128) (order : List ByteIndex) : Int128 :=
  order.foldl (fun u k => setByte u k (byteOf w k.val)) v

/-- A series of byte writes takes the bytes it names from the source and keeps the others. -/
theorem byteOf_copyBytes (w v : Int128) (order : List ByteIndex) (j : ByteIndex) :
    byteOf (copyBytes w v order) j.val = if j ∈ order then byteOf w j.val else byteOf v j.val := by
  induction order generalizing v with
  | nil => rfl
  | cons k ks ih =>
    refine (ih (setByte v k (byteOf w k.val))).trans ?_
    by_cases hjk : j = k
    · subst hjk; simp
    · simp [hjk, byteOf_setByte_ne hjk]

/-- Writing all sixteen bytes, in whatever order, leaves the source. -/
theorem copyBytes_of_forall_mem (w v : Int128) {order : List ByteIndex} (h : ∀ k, k ∈ order) : copyBytes w v order = w :=
  (eq_iff_byteOf_eq _ _).2 fun k => by rw [byteOf_copyBytes, if_pos (h k)]

/-- A series of host byte writes to one slot is one write of that slot. -/
theorem foldl_hostWriteByte (i : Slot) (w : Int128) (order : List ByteIndex) (s : State) :
    order.foldl (fun t k => hostWriteByte i k (byteOf w k.val) t) s = s.setSlot i (copyBytes w (s.slot i) order) := by
  induction order generalizing s with
  | nil => exact (State.setSlot_slot s i).symm
  | cons k ks ih => rw [List.foldl_cons, ih, hostWriteByte, State.setSlot_setSlot, State.slot_setSlot_same]; rfl

/-- Settles O46: a byte write is `setByte` in its slot, and sixteen of them in any order copy the value (`copyBytes_of_forall_mem`). -/
theorem hostWrites : Obligations.HostWrites := by
  refine ⟨fun s i k v => ⟨?_, fun j hj => ?_, fun j hj => ?_, rfl, rfl⟩,
    fun s i w => onlySlotWritten_setSlot i w s, fun s i w order horder => ?_⟩
  · rw [hostWriteByte, State.slot_setSlot_same, byteOf_setByte_same]
  · rw [hostWriteByte, State.slot_setSlot_same, byteOf_setByte_ne hj]
  · exact State.slot_setSlot_ne s i j _ hj
  · have hall : ∀ k, k ∈ order := fun k => horder.mem_iff.2 (List.mem_finRange k)
    rw [foldl_hostWriteByte, copyBytes_of_forall_mem w _ hall, hostWriteSlot]

/-- Settles O47: a read appends its answer, and slots are compared byte by byte. -/
theorem hostReads : Obligations.HostReads :=
  ⟨fun _ _ _ => rfl, fun _ _ => rfl, fun s i j => eq_iff_byteOf_eq (s.slot i) (s.slot j)⟩

end Sys2Proof.Machine
end

section
/-! Transactions taken one and two at a time (spec/20_memory.md R31, R36): what a step performs, what it adds to the host's answers,
and what a host access and a command next to each other see of each other. -/

namespace Sys2Proof.Machine

/-- Settles O9: the command is the transaction that the step takes off the list. -/
theorem stepPerformsDecodedCommand : Obligations.StepPerformsDecodedCommand := by
  intro s cw sc rest h
  rw [step, State.takeEvent_of_cons h]

/-- Settles O45, by the step lemma of each transaction. -/
theorem stepPerformsHostAccess : Obligations.StepPerformsHostAccess :=
  fun _ _ _ _ _ _ => ⟨step_of_writeByte rfl, step_of_writeSlot rfl, step_of_readByte rfl, step_of_readSlot rfl, step_of_reset rfl⟩

/-- Settles O14: the two commands have the same sources, so O13 applies to them from one state. -/
theorem aliasingDoesNotChangeResult : Obligations.AliasingDoesNotChangeResult := by
  intro s cw cw' sc hop ha hb
  exact resultDependsOnSourcesOnly s s cw cw' sc sc hop (fun _ => by rw [ha]) (fun _ => by rw [hb]) (fun _ => rfl)

/-- A read is answered once, and nothing else is answered (R42, R43). -/
theorem HostEvent.length_answersOn (e : HostEvent) (x : Vector Int128 16) :
    (e.answersOn x).length = if e.isRead then 1 else 0 := by
  cases e <;> rfl

/-- Settles O20: an idle step changes nothing, and any other takes the head off the list and answers it once if it is a read. -/
theorem stepKeepsReadAccount : Obligations.StepKeepsReadAccount := by
  intro s t hstep
  cases hp : s.port with
  | nil =>
    obtain rfl : s = t := by simpa [step_of_nil hp] using hstep
    simp [hp]
  | cons e rest =>
    obtain rfl := Host.Outcome.next.inj ((step_of_cons hp).symm.trans hstep)
    refine ⟨rfl, List.prefix_append _ _, ?_⟩
    simp only [List.length_append, e.length_answersOn, ← List.countP_eq_length_filter, List.countP_cons]
    omega

/-- Settles O48: each pair of transactions is run step by step; the second step reads the slot that the first one wrote. -/
theorem hostAndCommandsShareBytes : Obligations.HostAndCommandsShareBytes := by
  constructor
  · intro s cw sc k rest h
    refine ⟨_, (run_succ_of_step (step_of_command h)).trans (run_succ_of_step (step_of_readByte rfl)), ?_⟩
    simp
  · intro s i k v cw sc rest h
    refine ⟨_, (run_succ_of_step (step_of_writeByte h)).trans (run_succ_of_step (step_of_command rfl)), ?_⟩
    rw [dest_decode, State.slot_setSlot_same, resultOf_decode, State.slot_setSlot, State.slot_setSlot]
    rfl

end Sys2Proof.Machine
end

section
/-! The fields of a command (spec/30_encoding.md R51 to R55): an instruction is an operation with the fields it uses, and decoding and
encoding are said once on that form. A command word is fixed by its four fields and the spare bit. -/

namespace Sys2Proof

/-- The instruction an operation makes of a command's fields: it takes those R53 says it uses. -/
def Opcode.instr (op : Opcode) (d ra rb : Slot) (n : Int) : Instr :=
  match op with
  | .val => .val d n
  | .comp2 => .comp2 d ra
  | .sum => .sum d ra rb
  | .sub => .sub d ra rb
  | .shl => .shl d ra n
  | .shr => .shr d ra n
  | .sar => .sar d ra n
  | .mul => .mul d ra rb

theorem decode_eq_instr (cw : CommandWord) (sc : Scalar) :
    decode cw sc =
      (Opcode.ofBits (fieldOp cw)).instr (fieldD cw) (fieldRa cw) (fieldRb cw) (signedScalar sc) := by
  unfold decode
  cases Opcode.ofBits (fieldOp cw) <;> rfl

/-- Encoding writes 0 for what the operation does not use (R55, R58). -/
theorem encode_instr (op : Opcode) (d ra rb : Slot) (n : Int) :
    encode (op.instr d ra rb n) =
      (commandWord op d (if op.usesRa then ra else 0) (if op.usesRb then rb else 0),
        if op.usesScalar then scalarPattern n else 0) := by
  cases op <;> rfl

@[simp] theorem opcode_instr (op : Opcode) (d ra rb : Slot) (n : Int) : (op.instr d ra rb n).opcode = op := by
  cases op <;> rfl

@[simp] theorem opcode_decode (cw : CommandWord) (sc : Scalar) : (decode cw sc).opcode = Opcode.ofBits (fieldOp cw) := by
  rw [decode_eq_instr, opcode_instr]

/-- Two instructions of this form are equal exactly when the operation and the operands it uses are. -/
theorem instr_eq_instr_iff {op op' : Opcode} {d d' ra ra' rb rb' : Slot} {n n' : Int} :
    op.instr d ra rb n = op'.instr d' ra' rb' n' ↔
      op = op' ∧ d = d' ∧ (op.usesRa = true → ra = ra') ∧ (op.usesRb = true → rb = rb') ∧
        (op.usesScalar = true → n = n') := by
  by_cases hop : op = op'
  · subst hop
    cases op <;> simp [Opcode.instr, Opcode.usesRa, Opcode.usesRb, Opcode.usesScalar]
  · have hne : op.instr d ra rb n ≠ op'.instr d' ra' rb' n' := fun h => hop (by simpa using congrArg Instr.opcode h)
    simp [hne, hop]

theorem ofBits_injective : Function.Injective Opcode.ofBits :=
  Function.LeftInverse.injective bits_ofBits

theorem scalarInRange_iff {v : Int} : scalarInRange v = true ↔ -(2 ^ 63) ≤ v ∧ v < 2 ^ 63 := by
  simp [scalarInRange]

/-- `signed(S)` is a 64-bit two's-complement integer (R54). -/
theorem scalarInRange_signedScalar (sc : Scalar) : scalarInRange (signedScalar sc) = true :=
  scalarInRange_iff.2 ⟨sc.le_toInt, sc.toInt_lt⟩

@[simp] theorem scalarPattern_signedScalar (sc : Scalar) : scalarPattern (signedScalar sc) = sc :=
  BitVec.ofInt_toInt

/-- An integer in range is read back from its pattern (R54, R58). -/
theorem signedScalar_scalarPattern {v : Int} (h : scalarInRange v = true) : signedScalar (scalarPattern v) = v := by
  obtain ⟨hlo, hhi⟩ := scalarInRange_iff.1 h
  exact BitVec.toInt_ofInt_eq_self (by decide) hlo hhi

theorem wellFormed_instr (op : Opcode) (d ra rb : Slot) {n : Int} (h : scalarInRange n = true) :
    (op.instr d ra rb n).wellFormed = true := by
  cases op with
  | val | shl | shr | sar => exact h
  | comp2 | sum | sub | mul => rfl

theorem decode_commandWord (op : Opcode) (d ra rb : Slot) (sc : Scalar) :
    decode (commandWord op d ra rb) sc = op.instr d ra rb (signedScalar sc) := by
  simp [decode_eq_instr]

/-- A command word is the sum of its fields (R51, R58). -/
theorem toNat_eq_fields (cw : CommandWord) :
    cw.toNat = 0x8000 * (cw.getLsbD 15).toNat + 0x1000 * (fieldOp cw).toNat + 0x100 * (fieldD cw).val +
      0x10 * (fieldRa cw).val + (fieldRb cw).val := by
  have hlt := cw.isLt
  simp only [fieldOp, fieldD, fieldRa, fieldRb, BitVec.val_toFin, BitVec.extractLsb'_toNat, Nat.shiftRight_eq_div_pow,
    BitVec.getLsbD, Nat.toNat_testBit]
  omega

/-- With the spare bit zero, a command word is put together from its own fields (R51). -/
theorem commandWord_fields {cw : CommandWord} (h : cw.getLsbD 15 = false) :
    commandWord (Opcode.ofBits (fieldOp cw)) (fieldD cw) (fieldRa cw) (fieldRb cw) = cw := by
  apply BitVec.eq_of_toNat_eq
  rw [toNat_commandWord, bits_ofBits, toNat_eq_fields cw, h]
  simp

theorem fieldOp_and (cw m : CommandWord) : fieldOp (cw &&& m) = fieldOp cw &&& fieldOp m :=
  BitVec.extractLsb'_and

theorem fieldD_and (cw m : CommandWord) : fieldD (cw &&& m) = fieldD cw &&& fieldD m := by
  rw [fieldD, BitVec.extractLsb'_and, BitVec.toFin_and]; rfl

theorem fieldRa_and (cw m : CommandWord) : fieldRa (cw &&& m) = fieldRa cw &&& fieldRa m := by
  rw [fieldRa, BitVec.extractLsb'_and, BitVec.toFin_and]; rfl

theorem fieldRb_and (cw m : CommandWord) : fieldRb (cw &&& m) = fieldRb cw &&& fieldRb m := by
  rw [fieldRb, BitVec.extractLsb'_and, BitVec.toFin_and]; rfl

/-- Masking a slot number with all ones or with zero. -/
theorem slot_and_ite (i : Slot) (keep : Bool) : i &&& (if keep then 15 else 0) = if keep then i else 0 := by
  revert i keep; decide

/-- Under a mask that clears the spare bit and keeps or clears each source field whole, a command word is put together from the
fields kept. -/
theorem commandWord_and (cw : CommandWord) {m : CommandWord} (keepRa keepRb : Bool)
    (hm : m.getLsbD 15 = false ∧ fieldOp m = BitVec.allOnes 3 ∧ fieldD m = 15 ∧
      fieldRa m = (if keepRa then 15 else 0) ∧ fieldRb m = (if keepRb then 15 else 0)) :
    commandWord (Opcode.ofBits (fieldOp cw)) (fieldD cw) (if keepRa then fieldRa cw else 0) (if keepRb then fieldRb cw else 0) =
      cw &&& m := by
  obtain ⟨hspare, hop, hd, hra, hrb⟩ := hm
  have keepD : fieldD cw &&& 15 = fieldD cw := slot_and_ite (fieldD cw) true
  have h := commandWord_fields (cw := cw &&& m) (by rw [BitVec.getLsbD_and, hspare, Bool.and_false])
  rwa [fieldOp_and, hop, BitVec.and_allOnes, fieldD_and, hd, keepD, fieldRa_and, hra, slot_and_ite, fieldRb_and, hrb,
    slot_and_ite] at h

/-- Settles O2: the fields come back from the command word by `decode_commandWord`, the scalar because it is in range. -/
theorem decodeOfEncodeIsIdentity : Obligations.DecodeOfEncodeIsIdentity := by
  intro i h
  cases i with
  | val | shl | shr | sar => simp [encode, decode_commandWord, Opcode.instr, signedScalar_scalarPattern h]
  | comp2 | sum | sub | mul => simp [encode, decode_commandWord, Opcode.instr]

/-- Settles O3: the scalar of a decoded instruction is `signed(S)`, which is in range. -/
theorem everyCommandIsWellFormed : Obligations.EveryCommandIsWellFormed := by
  intro cw sc
  rw [decode_eq_instr]
  exact wellFormed_instr _ _ _ _ (scalarInRange_signedScalar sc)

/-- Settles O4: `instr_eq_instr_iff` on the two decodings; the opcode map and `signed` are injective. -/
theorem decodeReadsExactlyTheUsedFields : Obligations.DecodeReadsExactlyTheUsedFields := by
  intro cw cw' sc sc'
  rw [decode_eq_instr, decode_eq_instr, instr_eq_instr_iff, ofBits_injective.eq_iff]
  simp only [signedScalar, BitVec.toInt_inj]

/-- Settles O5: what encoding writes for the fields is the command under the mask of the fields that the operation uses. -/
theorem encodeOfDecodeClearsIgnoredBits : Obligations.EncodeOfDecodeClearsIgnoredBits := by
  intro cw sc
  rw [decode_eq_instr, encode_instr, scalarPattern_signedScalar]
  refine Prod.ext ?_ rfl
  have word := @commandWord_and cw
  generalize Opcode.ofBits (fieldOp cw) = op at word ⊢
  cases op with
  | val => exact word false false (by decide)
  | comp2 | shl | shr | sar => exact word true false (by decide)
  | sum | sub | mul => exact word true true (by decide)

/-- Settles O1: each word is evaluated. -/
theorem writtenOutWordsDecode : Obligations.WrittenOutWordsDecode := by
  unfold Obligations.WrittenOutWordsDecode
  decide

end Sys2Proof
end

section
/-! The assembler and the disassembler (spec/30_encoding.md R58 to R60): both names of an operation read the same line, a printed line
is read back, and a line with a scalar assembles exactly when its scalar does. -/

namespace Sys2Proof

theorem assemble_mnemonic (op : Opcode) (ops : List AsmOperand) :
    assemble op.mnemonic ops = (parseLine op ops).map encode := by
  simp [assemble, Option.map_eq_bind]

/-- The long name assembles as the short one (R59). -/
theorem assemble_longName (op : Opcode) (ops : List AsmOperand) : assemble op.longName ops = assemble op.mnemonic ops := by
  simp [assemble]

/-- A well-formed instruction's own operands are parsed back. -/
theorem parseLine_operands {i : Instr} (h : i.wellFormed = true) : parseLine i.opcode i.operands = some i := by
  cases i with
  | val | shl | shr | sar =>
    rw [Instr.wellFormed] at h
    simp [Instr.opcode, Instr.operands, parseLine, scalar?_decimal, h]
  | comp2 | sum | sub | mul => simp [Instr.opcode, Instr.operands, parseLine]

/-- What `val` assembles to hangs on its scalar alone. -/
theorem assemble_val (d : Slot) (v : AsmOperand) :
    assemble "val" [.slot d, v] = v.scalar?.map fun n => encode (.val d n) := by
  refine (assemble_mnemonic .val _).trans ?_
  cases hv : v.scalar? <;> simp [parseLine, hv]

/-- What a shift assembles to hangs on its count alone. -/
theorem assemble_shift {op : Opcode} (hop : op = .shl ∨ op = .shr ∨ op = .sar) (d a : Slot) (v : AsmOperand) :
    assemble op.mnemonic [.slot d, .slot a, v] = v.scalar?.map fun n => encode (op.instr d a 0 n) := by
  rw [assemble_mnemonic]
  rcases hop with rfl | rfl | rfl <;> cases hv : v.scalar? <;> simp [parseLine, hv, Opcode.instr]

theorem isSome_scalar?_decimal (v : Int) : (AsmOperand.decimal v).scalar?.isSome = true ↔ -(2 ^ 63) ≤ v ∧ v < 2 ^ 63 := by
  rw [scalar?_decimal, ← scalarInRange_iff]
  cases scalarInRange v <;> simp

theorem scalar?_pattern (p : Nat) :
    (AsmOperand.pattern p).scalar? = if p < 2 ^ 64 then some (signedScalar (BitVec.ofNat 64 p)) else none := rfl

/-- A pattern comes through the assembler as it was written (R54, R58). -/
theorem map_scalar?_pattern (p : Nat) (cw : CommandWord) :
    (AsmOperand.pattern p).scalar?.map (fun n => (cw, scalarPattern n)) =
      if p < 2 ^ 64 then some (cw, BitVec.ofNat 64 p) else none := by
  rw [scalar?_pattern]
  split <;> simp

/-- R58's sum, its fields placed by shifts. -/
theorem commandWord_eq_shifts (op : Opcode) (d a : Slot) :
    commandWord op d a 0 = BitVec.ofNat 16 (op.bits.toNat <<< 12 + d.val <<< 8 + a.val <<< 4) := by
  simp only [commandWord, Nat.shiftLeft_eq]
  congr 1
  simp
  omega

/-- Settles O6: the decoded instruction is well-formed (O3), so its printed operands are parsed back. -/
theorem assembleOfDisassembleIsEncode : Obligations.AssembleOfDisassembleIsEncode := by
  intro cw sc
  rw [disassemble, assemble_mnemonic, parseLine_operands (everyCommandIsWellFormed cw sc), Option.map_some]

/-- The short names in the order of the opcode values (R52, R59). -/
theorem mnemonic_ofBits (b : BitVec 3) :
    some (Opcode.ofBits b).mnemonic = ["val", "comp2", "sum", "sub", "shl", "shr", "sar", "mul"][b.toNat]? := by
  revert b; decide

/-- Settles O7: the two names of an operation are one name to the assembler. -/
theorem longNamesAssembleAlike : Obligations.LongNamesAssembleAlike := by
  refine ⟨fun ops => ⟨assemble_longName .val ops, assemble_longName .comp2 ops, assemble_longName .sum ops,
    assemble_longName .sub ops, assemble_longName .shl ops, assemble_longName .shr ops, assemble_longName .sar ops,
    assemble_longName .mul ops⟩, fun cw sc => ?_⟩
  rw [disassemble, opcode_decode]
  exact mnemonic_ofBits (fieldOp cw)

/-- Settles O8: a line with a scalar assembles exactly when the scalar is accepted, a decimal exactly when it is in range. -/
theorem immediateRangeIsEnforced : Obligations.ImmediateRangeIsEnforced := by
  intro d a v
  have shift {op : Opcode} (hop : op = .shl ∨ op = .shr ∨ op = .sar) :
      (assemble op.mnemonic [.slot d, .slot a, .decimal v]).isSome = true ↔ -(2 ^ 63) ≤ v ∧ v < 2 ^ 63 := by
    rw [assemble_shift hop, Option.isSome_map, isSome_scalar?_decimal]
  refine ⟨?_, shift (.inl rfl), shift (.inr (.inl rfl)), shift (.inr (.inr rfl))⟩
  rw [assemble_val, Option.isSome_map, isSome_scalar?_decimal]

/-- Settles O51: the line's scalar is the pattern's signed reading, and encoding it gives the pattern back. -/
theorem patternImmediateIsCarriedBitForBit : Obligations.PatternImmediateIsCarriedBitForBit := by
  intro d a p
  have shift {op : Opcode} (hop : op = .shl ∨ op = .shr ∨ op = .sar) :
      assemble op.mnemonic [.slot d, .slot a, .pattern p] =
        if p < 2 ^ 64 then some (BitVec.ofNat 16 (op.bits.toNat <<< 12 + d.val <<< 8 + a.val <<< 4), BitVec.ofNat 64 p)
        else none := by
    have hencode (n : Int) : encode (op.instr d a 0 n) = (commandWord op d a 0, scalarPattern n) := by
      rcases hop with rfl | rfl | rfl <;> rfl
    rw [assemble_shift hop, ← commandWord_eq_shifts, ← map_scalar?_pattern]
    simp only [hencode]
  refine ⟨?_, shift (.inl rfl), shift (.inr (.inl rfl)), shift (.inr (.inr rfl))⟩
  have hcw : commandWord .val d 0 0 = BitVec.ofNat 16 (0x0000 + d.val <<< 8) := commandWord_eq_shifts .val d 0
  rw [assemble_val, ← hcw]
  exact map_scalar?_pattern p (commandWord .val d 0 0)

end Sys2Proof
end

section
/-! What a command leaves in its destination (spec/30_encoding.md R57) and the two idioms of R60. -/

namespace Sys2Proof.Machine

/-- A count of zero or less copies (R80). -/
theorem fShl_of_nonpos (a : Int128) {n : Int} (h : n ≤ 0) : fShl a n = a := if_pos h

theorem fVal_zero : fVal 0 = 0#128 := by decide

/-- Every instruction completes with its result in its destination and nothing else changed (R57, R100). -/
theorem exec_onlySlotWritten (i : Instr) (s : State) :
    ∃ t, exec i s = .next t ∧ OnlySlotWritten i.dest (resultOf i s) s t :=
  ⟨_, exec_eq i s, onlySlotWritten_setSlot _ _ s⟩

/-- Settles O11: the frame of any instruction, with the destination and the result of a decoded one. -/
theorem commandWritesDatapathResult : Obligations.CommandWritesDatapathResult := by
  intro s cw sc
  rw [← resultOf_decode, ← dest_decode cw sc]
  exact exec_onlySlotWritten (decode cw sc) s

/-- Settles O30: a shift by 0 has its source for a result, `val` of 0 has zero. -/
theorem copyAndClearIdioms : Obligations.CopyAndClearIdioms := by
  intro d a s
  constructor
  · have hcopy : resultOf (.shl d a 0) s = s.slot a := fShl_of_nonpos (s.slot a) le_rfl
    exact hcopy ▸ exec_onlySlotWritten (.shl d a 0) s
  · have hclear : resultOf (.val d 0) s = 0#128 := fVal_zero
    exact hclear ▸ exec_onlySlotWritten (.val d 0) s

end Sys2Proof.Machine
end

section
/-! Construction from a native integer (spec/40_construct.md R61 to R64): the bytes of `F_val` are those of the native pattern
sign-extended to 128 bits, so the laws of R63 are those of sign extension. -/

namespace Sys2Proof.Machine

/-- The byte of R61 that fills above the native width: eight copies of the sign. -/
def fillByte (negative : Bool) : Byte := if negative then 0xFF else 0x00

@[simp] theorem getElem_fillByte (negative : Bool) {j : Nat} (hj : j < 8) : (fillByte negative)[j] = negative := by
  revert j negative; decide

theorem fillByte_decide_neg (v : Int) : fillByte (decide (v < 0)) = if 0 ≤ v then 0x00 else 0xFF := by
  by_cases h : 0 ≤ v <;> simp [fillByte, h, Int.not_lt.2, Int.not_le.1]

theorem extractLsb'_ofInt (W : Nat) (v : Int) (k : Nat) :
    (BitVec.ofInt W v).extractLsb' (8 * k) 8 = BitVec.ofNat 8 ((v % 2 ^ W).toNat >>> (8 * k)) := by
  rw [BitVec.extractLsb', BitVec.toNat_ofInt]
  push_cast
  rfl

/-- The pseudocode of R61, byte by byte. -/
theorem byteOf_fValWidth (W : Nat) (v : Int) {k : Nat} (hk : k < 16) :
    byteOf (fValWidth W v) k =
      if k < W / 8 then (BitVec.ofInt W v).extractLsb' (8 * k) 8 else fillByte (decide (v < 0)) := by
  rw [fValWidth, byteOf_ofBytes (by simp) k (by simpa using hk), fillByte_decide_neg, extractLsb'_ofInt]
  simp

theorem byteOf_fValWidth_of_ge {W : Nat} (v : Int) {k : Nat} (hW : W / 8 ≤ k) (hk : k < 16) :
    byteOf (fValWidth W v) k = if 0 ≤ v then 0x00 else 0xFF := by
  rw [byteOf_fValWidth W v hk, if_neg (Nat.not_lt.2 hW), fillByte_decide_neg]

theorem byteOf_signExtend {W : Nat} (hW : 8 ∣ W) (x : BitVec W) {k : Nat} (hk : k < 16) :
    byteOf (x.signExtend 128) k = if k < W / 8 then x.extractLsb' (8 * k) 8 else fillByte x.msb := by
  obtain ⟨n, rfl⟩ := hW
  rw [Nat.mul_div_cancel_left n (by decide)]
  ext j hj
  have hbit : 8 * k + j < 128 := by omega
  have hlow : 8 * k + j < 8 * n ↔ k < n := by omega
  simp only [← BitVec.getLsbD_eq_getElem]
  rw [byteOf, BitVec.getLsbD_extractLsb', BitVec.getLsbD_signExtend]
  by_cases h : k < n <;> simp [h, hlow, hbit, hj]

section
variable {W : Nat} {v : Int} (hpos : 0 < W) (hlo : -(2 ^ (W - 1)) ≤ v) (hhi : v < 2 ^ (W - 1))
include hpos hlo hhi

theorem msb_ofInt : (BitVec.ofInt W v).msb = decide (v < 0) := by
  rw [BitVec.msb_eq_toInt, BitVec.toInt_ofInt_eq_self hpos hlo hhi]

/-- The word form of R61: `F_val` is the sign extension of the native pattern. -/
theorem fValWidth_eq_signExtend (hW : 8 ∣ W) : fValWidth W v = (BitVec.ofInt W v).signExtend 128 := by
  refine eq_of_byteOf_eq fun k hk => ?_
  rw [byteOf_fValWidth W v hk, byteOf_signExtend hW _ hk, msb_ofInt hpos hlo hhi]

theorem fValWidth_eq_ofInt (hW : 8 ∣ W) : fValWidth W v = BitVec.ofInt 128 v := by
  rw [fValWidth_eq_signExtend hpos hlo hhi hW, BitVec.signExtend, BitVec.toInt_ofInt_eq_self hpos hlo hhi]

theorem toInt_fValWidth (hW : 8 ∣ W) (hle : W ≤ 128) : (fValWidth W v).toInt = v := by
  rw [fValWidth_eq_signExtend hpos hlo hhi hW, BitVec.toInt_signExtend_of_le hle, BitVec.toInt_ofInt_eq_self hpos hlo hhi]

end

theorem fVal_eq_signExtend {v : Int} (hlo : -(2 ^ 63) ≤ v) (hhi : v < 2 ^ 63) : fVal v = (BitVec.ofInt 64 v).signExtend 128 :=
  fValWidth_eq_signExtend (W := 64) (by decide) hlo hhi (by decide)

theorem toInt_fVal {v : Int} (hlo : -(2 ^ 63) ≤ v) (hhi : v < 2 ^ 63) : (fVal v).toInt = v :=
  toInt_fValWidth (W := 64) (by decide) hlo hhi (by decide) (by decide)

/-- `F_val` reaches exactly the sign extensions of 64-bit patterns. -/
theorem exists_fVal_eq_iff (r : Int128) :
    (∃ v : Int, -(2 ^ 63) ≤ v ∧ v < 2 ^ 63 ∧ fVal v = r) ↔ ∃ x : BitVec 64, x.signExtend 128 = r := by
  constructor
  · rintro ⟨v, hlo, hhi, rfl⟩
    exact ⟨BitVec.ofInt 64 v, (fVal_eq_signExtend hlo hhi).symm⟩
  · rintro ⟨x, rfl⟩
    have hlo := x.le_toInt
    have hhi := x.toInt_lt
    exact ⟨x.toInt, hlo, hhi, by rw [fVal_eq_signExtend hlo hhi, BitVec.ofInt_toInt]⟩

/-- A sign extension is known by its high bytes: they repeat the top bit of the native bytes. -/
theorem exists_signExtend_eq_iff (r : Int128) :
    (∃ x : BitVec 64, x.signExtend 128 = r) ↔ ∀ k, 8 ≤ k → k < 16 → byteOf r k = fillByte ((byteOf r 7).getLsbD 7) := by
  constructor
  · rintro ⟨x, rfl⟩ k hk hk16
    have hsign : (byteOf (x.signExtend 128) 7).getLsbD 7 = x.msb := by
      rw [byteOf_signExtend (by decide) x (by decide)]
      simp [BitVec.msb_eq_getLsbD_last]
    rw [hsign, byteOf_signExtend (by decide) x hk16, if_neg (by omega)]
  · intro hfill
    refine ⟨r.setWidth 64, eq_of_byteOf_eq fun k hk => ?_⟩
    rw [byteOf_signExtend (by decide) _ hk]
    split
    case isTrue hlow =>
      ext j hj
      have hbit : 8 * k + j < 64 := by omega
      simp [byteOf, hbit]
    case isFalse hhigh =>
      rw [hfill k (by omega) hk]
      simp [byteOf, BitVec.msb_eq_getLsbD_last]

theorem isNegative_eq_decide (a : Int128) : isNegative a = decide (a.toInt < 0) := by
  rw [← BitVec.msb_eq_toInt, BitVec.msb_eq_getLsbD_last]; rfl

/-- Settles O22: the result of `val` is `F_val`, in the word form of R61. -/
theorem valWritesSignExtension : Obligations.ValWritesSignExtension := by
  intro d v s hlo hhi
  have hresult : resultOf (.val d v) s = (BitVec.ofInt 64 v).signExtend 128 := fVal_eq_signExtend hlo hhi
  exact hresult ▸ exec_onlySlotWritten (.val d v) s

/-- Settles O31: the bytes on either side of byte 8, and the word form. -/
theorem constructBytes : Obligations.ConstructBytes := by
  intro v hlo hhi
  refine ⟨fun k hk => ?_, fun k hk hk16 => byteOf_fValWidth_of_ge (W := 64) v hk hk16, fVal_eq_signExtend hlo hhi⟩
  have hbyte : byteOf (fVal v) k = BitVec.ofNat 8 ((v % 2 ^ 64).toNat >>> (8 * k)) :=
    ((byteOf_fValWidth 64 v (by omega)).trans (if_pos hk)).trans (extractLsb'_ofInt 64 v k)
  rw [hbyte, BitVec.toNat_ofNat, Nat.shiftRight_eq_div_pow]

/-- Settles O32: the constructed value is `v` as a 128-bit integer, and its top bit is the sign of that. -/
theorem constructRoundTripsAtEveryWidth : Obligations.ConstructRoundTripsAtEveryWidth := by
  intro W v hW hmin hmax hlo hhi
  have hpos : 0 < W := by omega
  have hint : (fValWidth W v).toInt = v := toInt_fValWidth hpos hlo hhi hW (by omega)
  refine ⟨hint, ?_, fun k hk hk16 => byteOf_fValWidth_of_ge v hk hk16, ?_⟩
  · rw [fValWidth_eq_ofInt hpos hlo hhi hW, BitVec.toNat_ofInt]
    exact Int.toNat_of_nonneg (Int.emod_nonneg v (by decide))
  · rw [isNegative_eq_decide, hint, decide_eq_true_iff]

/-- Settles O33: the signed reading gives `v` back, and what construction reaches is the sign extensions of 64-bit patterns. -/
theorem constructImage : Obligations.ConstructImage := by
  refine ⟨fun v w hvlo hvhi hwlo hwhi h => ?_, fun r => (exists_fVal_eq_iff r).trans (exists_signExtend_eq_iff r)⟩
  rw [← toInt_fVal hvlo hvhi, h, toInt_fVal hwlo hwhi]

end Sys2Proof.Machine
end

section
/-! Two's-complement negation (spec/41_negate.md R65 to R67) and the sum that undoes it (spec/42_add_sub.md R70): the carry chains
compute negation and addition of 128-bit words, so the laws of R66 are those of the words. -/

namespace Sys2Proof.Machine

/-- `ofBytes_carryChain` for a carry that counts as itself and needs no bound: the chains of R65 and R70. -/
theorem ofBytes_carryChain_natCast {α : Type} (f : Nat → α → Byte × Nat) (g : α → Int)
    (hf : ∀ c a, ((f c a).1.toNat : Int) + 256 * ((f c a).2 : Int) = g a + (c : Int))
    {l : List α} (hl : l.length = 16) (c : Nat) : ofBytes (carryChain f c l) = BitVec.ofInt 128 (leSum g l + (c : Int)) :=
  ofBytes_carryChain f g (fun c => (c : Int)) (fun _ => True) (fun c a _ => ⟨hf c a, trivial⟩) l hl c trivial

/-- The word form of R65: the complement of every byte plus the first carry is `2^128 - a`. -/
theorem fComp2_eq_neg (a : Int128) : fComp2 a = -a := by
  have hsum : (256 : Int) ^ 16 - 1 - (a.toNat : Int) + ((1 : Nat) : Int) = ((2 ^ 128 : Nat) : Int) + -(a.toNat : Int) := by
    push_cast; ring
  rw [fComp2, ofBytes_carryChain_natCast comp2Step _ comp2Step_spec (length_bytes a), leSum_complement, length_bytes,
    leValue_bytes, hsum, BitVec.ofInt_add, BitVec.ofInt_neg, BitVec.ofInt_natCast, BitVec.ofInt_natCast, BitVec.ofNat_toNat]
  simp

/-- The word form of R70. -/
theorem fSum_eq_add (a b : Int128) : fSum a b = a + b := by
  rw [fSum, ofBytes_carryChain_natCast sumStep _ sumStep_spec (by simp), leSum_zip 1 _ _ (by simp), leValue_bytes, leValue_bytes]
  simp [BitVec.ofInt_add]

theorem toInt_eq_neg_two_pow_iff (a : Int128) : a.toInt = -(2 ^ 127) ↔ a = BitVec.intMin 128 := by
  rw [← BitVec.toInt_inj, BitVec.toInt_intMin]; norm_num

/-- Two values are their own negation: zero and the least signed value (R66 (f)). -/
theorem neg_eq_self_iff_toNat (a : Int128) : -a = a ↔ a.toNat = 0 ∨ a.toNat = 2 ^ 127 := by
  have := a.isLt
  rw [← BitVec.toNat_inj, BitVec.toNat_neg]
  omega

/-- Settles O23: the result of `comp2` is `F_comp2`, in its word form. -/
theorem comp2WritesNegation : Obligations.Comp2WritesNegation := by
  intro d a s
  have hresult : resultOf (.comp2 d a) s = -s.slot a := fComp2_eq_neg (s.slot a)
  exact hresult ▸ exec_onlySlotWritten (.comp2 d a) s

/-- Settles O34: each law of R66 is one of negation modulo 2^128. -/
theorem negationLaws : Obligations.NegationLaws := by
  unfold Obligations.NegationLaws
  simp only [fComp2_eq_neg, fSum_eq_add, toInt_eq_neg_two_pow_iff, ne_eq]
  exact ⟨BitVec.toNat_neg, fun _ => BitVec.toInt_neg_of_ne_intMin, fun _ h => h ▸ BitVec.neg_intMin,
    fun _ => BitVec.neg_neg, BitVec.neg_zero 128, BitVec.add_right_neg, neg_eq_self_iff_toNat⟩

end Sys2Proof.Machine
end

section
/-! Addition and subtraction (spec/42_add_sub.md R70 to R75): the borrow chain computes subtraction of 128-bit words, as the carry chain
computes their addition, so the laws of R74 and R75 are those of the words. -/

namespace Sys2Proof.Machine

/-- The word form of R72: a borrow counts negatively, so the bytes of the second number do too. -/
theorem fSub_eq_sub (a b : Int128) : fSub a b = a - b := by
  rw [fSub, ofBytes_carryChain subStep _ (fun c => -(c : Int)) (· ≤ 1) subStep_spec _ (by simp) 0 zero_le_one,
    leSum_zip (-1) _ _ (by simp), leValue_bytes, leValue_bytes]
  simp [BitVec.ofInt_add, BitVec.ofInt_neg, BitVec.sub_eq_add_neg]

/-- The signed reading of a sum is the integer sum (R74 (b)), up to a multiple of 2^128. -/
theorem toInt_add_modEq (a b : Int128) : (a + b).toInt ≡ a.toInt + b.toInt [ZMOD 2 ^ 128] := by
  rw [BitVec.toInt_add]
  exact Int.bmod_emod

/-- The multiple is whichever one brings the integer sum back into the signed range. -/
theorem toInt_add_eq {a b : Int128} {v : Int} (k : Int) (h : a.toInt + b.toInt = v + (2 ^ 128 : Nat) * k)
    (hlo : -(2 ^ 127) ≤ v) (hhi : v < 2 ^ 127) : (a + b).toInt = v := by
  rw [BitVec.toInt_add, h, Int.add_mul_bmod_self_left, Int.bmod_eq_of_le hlo hhi]

theorem toInt_bounds (a : Int128) : -(2 ^ 127) ≤ a.toInt ∧ a.toInt < 2 ^ 127 := ⟨a.le_toInt, a.toInt_lt⟩

theorem toInt_add_of_in_range {a b : Int128} (hlo : -(2 ^ 127) ≤ a.toInt + b.toInt) (hhi : a.toInt + b.toInt < 2 ^ 127) :
    (a + b).toInt = a.toInt + b.toInt :=
  toInt_add_eq 0 (by omega) hlo hhi

theorem toInt_add_of_lt {a b : Int128} (h : a.toInt + b.toInt < -(2 ^ 127)) : (a + b).toInt = a.toInt + b.toInt + 2 ^ 128 := by
  have ha := toInt_bounds a
  have hb := toInt_bounds b
  exact toInt_add_eq (-1) (by omega) (by omega) (by omega)

theorem toInt_add_of_ge {a b : Int128} (h : 2 ^ 127 ≤ a.toInt + b.toInt) : (a + b).toInt = a.toInt + b.toInt - 2 ^ 128 := by
  have ha := toInt_bounds a
  have hb := toInt_bounds b
  exact toInt_add_eq 1 (by omega) (by omega) (by omega)

/-- The word form of R75 over the integers. -/
theorem toNat_sub_intCast (a b : Int128) : ((a - b).toNat : Int) = ((a.toNat : Int) - (b.toNat : Int)) % 2 ^ 128 := by
  have := b.isLt
  rw [BitVec.toNat_sub]
  omega

/-- Settles O24: the result of `sum` is `F_sum`, in its word form. -/
theorem sumWritesModularSum : Obligations.SumWritesModularSum := by
  intro d a b s
  have hresult : resultOf (.sum d a b) s = s.slot a + s.slot b := fSum_eq_add (s.slot a) (s.slot b)
  exact hresult ▸ exec_onlySlotWritten (.sum d a b) s

/-- Settles O25: the result of `sub` is `F_sub`, in its word form. -/
theorem subWritesModularDifference : Obligations.SubWritesModularDifference := by
  intro d a b s
  have hresult : resultOf (.sub d a b) s = s.slot a - s.slot b := fSub_eq_sub (s.slot a) (s.slot b)
  exact hresult ▸ exec_onlySlotWritten (.sub d a b) s

/-- Settles O35: each law of R74 is one of addition modulo 2^128, and the signed reading wraps at most once. -/
theorem additionLaws : Obligations.AdditionLaws := by
  unfold Obligations.AdditionLaws
  simp only [fSum_eq_add, fComp2_eq_neg]
  exact ⟨BitVec.toNat_add, toInt_add_modEq, fun _ _ => toInt_add_of_in_range, fun _ _ => toInt_add_of_lt,
    fun _ _ => toInt_add_of_ge, BitVec.add_comm, BitVec.add_assoc, BitVec.add_zero, BitVec.add_right_neg⟩

/-- Settles O36: each law of R75 is one of subtraction modulo 2^128; 1 and 0 do not commute. -/
theorem subtractionLaws : Obligations.SubtractionLaws := by
  unfold Obligations.SubtractionLaws
  simp only [fSub_eq_sub, fSum_eq_add, fComp2_eq_neg]
  exact ⟨BitVec.sub_eq_add_neg, toNat_sub_intCast, BitVec.sub_self, BitVec.sub_zero, BitVec.zero_sub,
    fun a b => (neg_sub a b).symm, 1#128, 0#128, by decide⟩

end Sys2Proof.Machine
end

section
/-! The shifts in the middle range of counts (spec/43_shifts.md R82): the byte pass shifts the word by whole bytes, the bit pass by the
bits that are left. -/

namespace Sys2Proof.Machine

theorem getLsbD_byteOf (a : Int128) (k : Nat) {j : Nat} (hj : j < 8) : (byteOf a k).getLsbD j = a.getLsbD (8 * k + j) := by
  simp [byteOf, hj]

/-- Bit `i` of sixteen bytes put together is bit `i % 8` of byte `i / 8` (R11). -/
theorem getLsbD_ofBytes {l : List Byte} (h : l.length = 16) {i : Nat} (hi : i < 128) :
    (ofBytes l).getLsbD i = (l[i / 8]'(by omega)).getLsbD (i % 8) := by
  rw [← byteOf_ofBytes h (i / 8) (by omega), getLsbD_byteOf _ _ (Nat.mod_lt i (by decide)), Nat.div_add_mod]

theorem getLsbD_fillByte (negative : Bool) {j : Nat} (hj : j < 8) : (fillByte negative).getLsbD j = negative := by
  rw [BitVec.getLsbD_eq_getElem hj, getElem_fillByte negative hj]

@[simp] theorem length_bytesUp (byteShift : Nat) (a : Int128) : (bytesUp byteShift a).length = 16 := by simp [bytesUp]

@[simp] theorem length_bytesDown (byteShift : Nat) (fill : Byte) (a : Int128) : (bytesDown byteShift fill a).length = 16 := by
  simp [bytesDown]

/-- The byte pass of R83 shifts left by whole bytes. -/
theorem ofBytes_bytesUp (byteShift : Nat) (a : Int128) : ofBytes (bytesUp byteShift a) = a <<< (8 * byteShift) := by
  refine BitVec.eq_of_getLsbD_eq fun i hi => ?_
  have hj := Nat.mod_lt i (show 0 < 8 by decide)
  rw [getLsbD_ofBytes (length_bytesUp _ _) hi, BitVec.getLsbD_shiftLeft]
  simp only [bytesUp, List.getElem_map, List.getElem_range]
  split
  case isTrue h =>
    have hfrom : 8 * (i / 8 - byteShift) + i % 8 = i - 8 * byteShift := by omega
    rw [getLsbD_byteOf _ _ hj, hfrom]
    simp [hi, show ¬ i < 8 * byteShift by omega]
  case isFalse h => simp [show i < 8 * byteShift by omega]

/-- The ascending bit pass of R83 shifts left by the residual bits. -/
theorem ofBytes_shlChain (bitShift : Nat) {t : List Byte} (ht : t.length = 16) :
    ofBytes (carryChain (shlStep bitShift) 0 t) = ofBytes t <<< bitShift := by
  have hsum : 2 ^ bitShift * (leValue t : Int) + ((0 : Nat) : Int) = ((leValue t * 2 ^ bitShift : Nat) : Int) := by
    push_cast; ring
  rw [ofBytes_carryChain (shlStep bitShift) _ (fun c => (c : Int)) (· < 2 ^ bitShift) (shlStep_spec bitShift) t ht 0
    (by positivity), leSum_mul, hsum, BitVec.ofInt_natCast]
  apply BitVec.eq_of_toNat_eq
  rw [BitVec.toNat_shiftLeft, toNat_ofBytes ht, Nat.shiftLeft_eq, BitVec.toNat_ofNat]

/-- The two passes of R83 shift left by the whole count. -/
theorem ofBytes_passesUp (a : Int128) (n : Nat) :
    ofBytes (carryChain (shlStep (n % 8)) 0 (bytesUp (n / 8) a)) = a <<< n := by
  rw [ofBytes_shlChain _ (length_bytesUp _ _), ofBytes_bytesUp, ← BitVec.shiftLeft_add, Nat.div_add_mod]

/-- The byte pass of R85 and R87 shifts right by whole bytes, the fill entering at the top. -/
theorem getLsbD_ofBytes_bytesDown (byteShift : Nat) (negative : Bool) (a : Int128) {i : Nat} (hi : i < 128) :
    (ofBytes (bytesDown byteShift (fillByte negative) a)).getLsbD i =
      if i + 8 * byteShift < 128 then a.getLsbD (i + 8 * byteShift) else negative := by
  have hj := Nat.mod_lt i (show 0 < 8 by decide)
  have hiff : i / 8 + byteShift ≤ 15 ↔ i + 8 * byteShift < 128 := by omega
  have hfrom : 8 * (i / 8 + byteShift) + i % 8 = i + 8 * byteShift := by omega
  rw [getLsbD_ofBytes (length_bytesDown _ _ _) hi]
  simp only [bytesDown, List.getElem_map, List.getElem_range, hiff]
  split
  case isTrue => rw [getLsbD_byteOf _ _ hj, hfrom]
  case isFalse => exact getLsbD_fillByte negative hj

/-- The carry into byte 15 of the descending bit pass (R85, R87): as many copies of the sign as the pass shifts by. -/
def signSeed (bitShift : Nat) (negative : Bool) : Nat := if negative then (1 <<< bitShift) - 1 else 0

theorem signSeed_lt (bitShift : Nat) (negative : Bool) : signSeed bitShift negative < 2 ^ bitShift := by
  have := Nat.two_pow_pos bitShift
  cases negative <;> simp [signSeed, Nat.one_shiftLeft]

theorem testBit_signSeed {bitShift j : Nat} (negative : Bool) (hj : j < bitShift) :
    (signSeed bitShift negative).testBit j = negative := by
  cases negative <;> simp [signSeed, Nat.one_shiftLeft, hj]

/-- The descending bit pass of R85 and R87 shifts right by the residual bits, the seed entering at the top. -/
theorem toNat_ofBytes_bitPassDown {bitShift seed : Nat} (hbit : bitShift ≤ 8) (hseed : seed < 2 ^ bitShift) {t : List Byte}
    (ht : t.length = 16) :
    (ofBytes (bitPassDown bitShift seed t)).toNat = (2 ^ 128 * seed + (ofBytes t).toNat) / 2 ^ bitShift := by
  rw [bitPassDown, toNat_ofBytes (by simp [ht]), leValue_shrChain bitShift hbit _ _ hseed, List.reverse_reverse,
    List.length_reverse, ht, toNat_ofBytes ht, mul_comm seed]
  norm_num

theorem getLsbD_ofBytes_bitPassDown {bitShift : Nat} (hbit : bitShift ≤ 8) (negative : Bool) {t : List Byte}
    (ht : t.length = 16) {i : Nat} (hi : i < 128) :
    (ofBytes (bitPassDown bitShift (signSeed bitShift negative) t)).getLsbD i =
      if i + bitShift < 128 then (ofBytes t).getLsbD (i + bitShift) else negative := by
  rw [← BitVec.testBit_toNat, toNat_ofBytes_bitPassDown hbit (signSeed_lt _ _) ht, Nat.testBit_div_two_pow,
    Nat.testBit_two_pow_mul_add _ (ofBytes t).isLt]
  split
  case isTrue => exact BitVec.testBit_toNat _
  case isFalse h => exact testBit_signSeed negative (by omega)

/-- The two passes of R85 and R87 shift right by the whole count, copies of `negative` entering at the top. -/
theorem getLsbD_ofBytes_passesDown (a : Int128) (n : Nat) (negative : Bool) {i : Nat} (hi : i < 128) :
    (ofBytes (bitPassDown (n % 8) (signSeed (n % 8) negative) (bytesDown (n / 8) (fillByte negative) a))).getLsbD i =
      if n + i < 128 then a.getLsbD (n + i) else negative := by
  have hn : i + n % 8 + 8 * (n / 8) = n + i := by omega
  rw [getLsbD_ofBytes_bitPassDown (by omega) negative (length_bytesDown _ _ _) hi]
  split
  case isTrue h => rw [getLsbD_ofBytes_bytesDown _ negative a h, hn]
  case isFalse h => rw [if_neg (by omega)]

end Sys2Proof.Machine
end

section
/-! The word forms of the shifts (spec/43_shifts.md R89) for every integer count, and what follows from them: a count of zero or less
shifts by no place, and one of 128 or more shifts everything out (R80, R81). -/

namespace Sys2Proof.Machine

/-- The sixteen zeros of R81 are the number 0. -/
theorem ofBytes_replicate_zero : ofBytes (List.replicate 16 0x00) = 0#128 := by decide

/-- The word form of R83. -/
theorem fShl_eq_shiftLeft (a : Int128) (n : Int) : fShl a n = a <<< n.toNat := by
  rw [fShl]
  split
  case isTrue h => rw [Int.toNat_of_nonpos h, BitVec.shiftLeft_zero]
  split
  case isTrue h => rw [ofBytes_replicate_zero, BitVec.shiftLeft_eq_zero (by omega)]
  case isFalse => exact ofBytes_passesUp a n.toNat

/-- The word form of R85. -/
theorem fShr_eq_ushiftRight (a : Int128) (n : Int) : fShr a n = a >>> n.toNat := by
  rw [fShr]
  split
  case isTrue h => rw [Int.toNat_of_nonpos h, BitVec.ushiftRight_zero]
  split
  case isTrue h => rw [ofBytes_replicate_zero, BitVec.ushiftRight_eq_zero (by omega)]
  case isFalse =>
    refine BitVec.eq_of_getLsbD_eq fun i hi => (getLsbD_ofBytes_passesDown a n.toNat false hi).trans ?_
    rw [BitVec.getLsbD_ushiftRight]
    split
    case isTrue => rfl
    case isFalse h => exact (BitVec.getLsbD_of_ge a _ (by omega)).symm

theorem isNegative_eq_msb (a : Int128) : isNegative a = a.msb := (BitVec.msb_eq_getLsbD_last a).symm

theorem getLsbD_sshiftRight_of_lt (a : Int128) (n : Nat) {i : Nat} (hi : i < 128) :
    (a.sshiftRight n).getLsbD i = if n + i < 128 then a.getLsbD (n + i) else isNegative a := by
  rw [BitVec.getLsbD_sshiftRight, isNegative_eq_msb]
  simp [hi]

/-- The word form of R87. -/
theorem fSar_eq_sshiftRight (a : Int128) (n : Int) : fSar a n = a.sshiftRight n.toNat := by
  rw [fSar]
  split
  case isTrue h => rw [Int.toNat_of_nonpos h, BitVec.sshiftRight_zero]
  refine BitVec.eq_of_getLsbD_eq fun i hi => ?_
  rw [getLsbD_sshiftRight_of_lt a _ hi]
  split
  case isTrue h =>
    rw [getLsbD_ofBytes (by simp) hi, List.getElem_replicate, if_neg (by omega)]
    exact getLsbD_fillByte (isNegative a) (Nat.mod_lt i (by decide))
  case isFalse => exact getLsbD_ofBytes_passesDown a n.toNat (isNegative a) hi

/-- An arithmetic shift by the width or more leaves copies of the sign. -/
theorem sshiftRight_of_ge (a : Int128) {n : Nat} (h : 128 ≤ n) :
    a.sshiftRight n = if isNegative a then BitVec.allOnes 128 else 0#128 := by
  refine BitVec.eq_of_getLsbD_eq fun i hi => ?_
  rw [getLsbD_sshiftRight_of_lt a n hi, if_neg (by omega)]
  cases isNegative a with
  | false => simp
  | true => rw [if_pos rfl, BitVec.getLsbD_allOnes, decide_eq_true hi]

/-- Settles O37: shifting by no place is copying. -/
theorem shiftByZeroOrLessCopies : Obligations.ShiftByZeroOrLessCopies := by
  intro a n h
  rw [fShl_eq_shiftLeft, fShr_eq_ushiftRight, fSar_eq_sshiftRight, Int.toNat_of_nonpos h]
  exact ⟨BitVec.shiftLeft_zero a, BitVec.ushiftRight_zero a, BitVec.sshiftRight_zero⟩

/-- Settles O38, by the word forms at counts that shift every bit out. -/
theorem shiftByWidthOrMoreFills : Obligations.ShiftByWidthOrMoreFills := by
  intro a n h
  have hn : 128 ≤ n.toNat := by omega
  rw [fShl_eq_shiftLeft, fShr_eq_ushiftRight, fSar_eq_sshiftRight]
  exact ⟨BitVec.shiftLeft_eq_zero hn, BitVec.ushiftRight_eq_zero hn, sshiftRight_of_ge a hn⟩

/-- A shift by the count's natural number already copies for a count of zero or less, so the case split of R80 changes nothing. -/
theorem ite_nonpos_eq {a : Int128} {n : Int} (shift : Int128 → Nat → Int128) (h0 : shift a 0 = a) :
    (if n ≤ 0 then a else shift a n.toNat) = shift a n.toNat := by
  split
  case isTrue h => rw [Int.toNat_of_nonpos h, h0]
  case isFalse => rfl

/-- Settles O26: the result of `shl` is `F_shl`, in its word form. -/
theorem shlWritesLeftShift : Obligations.ShlWritesLeftShift := by
  intro d a n s
  rw [ite_nonpos_eq (· <<< ·) (BitVec.shiftLeft_zero _), ← fShl_eq_shiftLeft]
  exact exec_onlySlotWritten (.shl d a n) s

/-- Settles O27: the result of `shr` is `F_shr`, in its word form. -/
theorem shrWritesLogicalRightShift : Obligations.ShrWritesLogicalRightShift := by
  intro d a n s
  rw [ite_nonpos_eq (· >>> ·) (BitVec.ushiftRight_zero _), ← fShr_eq_ushiftRight]
  exact exec_onlySlotWritten (.shr d a n) s

/-- Settles O28: the result of `sar` is `F_sar`, in its word form. -/
theorem sarWritesArithmeticRightShift : Obligations.SarWritesArithmeticRightShift := by
  intro d a n s
  rw [ite_nonpos_eq BitVec.sshiftRight BitVec.sshiftRight_zero, ← fSar_eq_sshiftRight]
  exact exec_onlySlotWritten (.sar d a n) s

/-- Settles O39: the numbers and the bits of the word forms, and the copy of O37. -/
theorem shiftWordForms : Obligations.ShiftWordForms := by
  refine ⟨fun a n => ?_, fun a n => ?_, fun a n => ?_, fun a n i _ _ hi _ => ?_, fun a n i _ _ hi => ?_,
    fun a n h => shiftByZeroOrLessCopies a n h.le⟩
  · rw [fShl_eq_shiftLeft, Int.toNat_natCast, BitVec.toNat_shiftLeft, Nat.shiftLeft_eq]
  · rw [fShr_eq_ushiftRight, Int.toNat_natCast, BitVec.toNat_ushiftRight, Nat.shiftRight_eq_div_pow]
  · rw [fSar_eq_sshiftRight, Int.toNat_natCast, BitVec.toInt_sshiftRight, Int.shiftRight_eq_div_pow]
    norm_cast
  · rw [fShr_eq_ushiftRight, Int.toNat_natCast, BitVec.getLsbD_ushiftRight]
    exact BitVec.getLsbD_of_ge a _ (by omega)
  · rw [fSar_eq_sshiftRight, Int.toNat_natCast, getLsbD_sshiftRight_of_lt a n hi]
    rcases lt_trichotomy i (127 - n) with h | h | h
    · rw [if_pos (by omega), if_pos h]
    · rw [if_pos (by omega), if_neg (by omega), show n + i = 127 by omega]
    · rw [if_neg (by omega), if_neg (by omega), isNegative]

/-- Settles O40: the top bit of a shifted value is 0 in the one and the sign in the other; where the sign is 0 the shifts agree. -/
theorem logicalAgainstArithmeticShift : Obligations.LogicalAgainstArithmeticShift := by
  refine ⟨fun a n hneg hn => ?_, fun a n _ hn => (shiftByZeroOrLessCopies a n hn).2, fun a n hneg => ?_⟩
  · have hshr : isNegative (fShr a n) = false := by
      rw [fShr_eq_ushiftRight, isNegative_eq_msb, BitVec.msb_ushiftRight]
      simp [hn]
    have hsar : isNegative (fSar a n) = true := by
      rw [fSar_eq_sshiftRight, isNegative_eq_msb, BitVec.msb_sshiftRight, ← isNegative_eq_msb, hneg]
    exact ⟨fun h => by simp [h, hsar] at hshr, hshr, hsar⟩
  · rw [isNegative_eq_msb] at hneg
    rw [fShr_eq_ushiftRight, fSar_eq_sshiftRight, BitVec.sshiftRight_eq_of_msb_false hneg]

end Sys2Proof.Machine
end

section
/-! Shifts against multiplication (spec/43_shifts.md R92): the loop of R95 computes the product of 128-bit words, and a product with a
constructed power of two is a left shift. -/

namespace Sys2Proof.Machine

/-- Before iteration `j` of R95: the accumulator is `a` times the low `j` bits of `b`, the shifted copy is `a` shifted by `j`. -/
theorem mulAfter_eq (a b : Int128) (j : Nat) : mulAfter a b j = (a * (b.setWidth j).setWidth 128, a <<< j) := by
  induction j with
  | zero => simp [mulAfter, BitVec.of_length_zero]
  | succ j ih =>
    have hcopy : fShl (a <<< j) 1 = a <<< (j + 1) := by rw [fShl_eq_shiftLeft, BitVec.shiftLeft_add]; rfl
    rw [mulAfter, ih]
    simp only [hcopy, BitVec.setWidth_setWidth_succ_eq_setWidth_setWidth_add_twoPow, BitVec.and_twoPow, fSum_eq_add]
    split
    case isTrue => rw [BitVec.mul_add, BitVec.mul_twoPow_eq_shiftLeft]
    case isFalse => rw [BitVec.add_zero]

/-- The word form of R95. -/
theorem fMul_eq_mul (a b : Int128) : fMul a b = a * b := by
  rw [fMul, mulAfter_eq, BitVec.setWidth_eq, BitVec.setWidth_eq]

theorem fVal_natCast {v : Nat} (h : v < 2 ^ 63) : fVal v = BitVec.ofNat 128 v :=
  (fValWidth_eq_ofInt (W := 64) (by decide) (by omega) (by exact_mod_cast h) (by decide)).trans (BitVec.ofInt_natCast 128 v)

theorem fVal_two_pow {k : Nat} (hk : k < 63) : fVal (2 ^ k) = BitVec.twoPow 128 k := by
  have hcast : fVal (2 ^ k) = BitVec.ofNat 128 (2 ^ k) := by
    exact_mod_cast fVal_natCast (Nat.pow_lt_pow_right (by decide) hk)
  rw [hcast]
  apply BitVec.eq_of_toNat_eq
  rw [BitVec.toNat_twoPow, BitVec.toNat_ofNat]

theorem fShl_eq_fMul_two_pow (a : Int128) {k : Nat} (hk : k < 63) : fShl a k = fMul a (fVal (2 ^ k)) := by
  rw [fShl_eq_shiftLeft, Int.toNat_natCast, fMul_eq_mul, fVal_two_pow hk, BitVec.mul_twoPow_eq_shiftLeft]

/-- A native integer of zero or more, shifted right after construction or divided before it. -/
theorem fShr_fVal_natCast {v : Nat} (hv : v < 2 ^ 63) (k : Nat) : fShr (fVal v) k = fVal ((v / 2 ^ k : Nat) : Int) := by
  have hq : v / 2 ^ k < 2 ^ 63 := (Nat.div_le_self v _).trans_lt hv
  rw [fShr_eq_ushiftRight, Int.toNat_natCast, fVal_natCast hv, fVal_natCast hq]
  apply BitVec.eq_of_toNat_eq
  rw [BitVec.toNat_ushiftRight, BitVec.toNat_ofNat, BitVec.toNat_ofNat, Nat.shiftRight_eq_div_pow,
    Nat.mod_eq_of_lt (by omega), Nat.mod_eq_of_lt (by omega)]

/-- Settles O41: the product by 2^k is a shift; at 63 the constructed scalar is the negative one, and 1 tells the two apart. -/
theorem shiftsAgainstMultiplyAndNative : Obligations.ShiftsAgainstMultiplyAndNative := by
  refine ⟨fun a k => fShl_eq_fMul_two_pow a, ?_, fun v k hv0 hv _ => ?_⟩
  · rw [fShl_eq_shiftLeft, fMul_eq_mul]
    decide
  · lift v to Nat using hv0
    exact_mod_cast fShr_fVal_natCast (by exact_mod_cast hv) k

end Sys2Proof.Machine
end

section
/-! Multiplication (spec/44_multiply.md R95 to R98): the loop computes the product of 128-bit words, so the laws of R97 and R98 are those
of the words. -/

namespace Sys2Proof.Machine

/-- The signed reading of a product is the integer product (R97), up to a multiple of 2^128. -/
theorem toInt_mul_modEq (a b : Int128) : (a * b).toInt ≡ a.toInt * b.toInt [ZMOD 2 ^ 128] := by
  rw [BitVec.toInt_mul]
  exact Int.bmod_emod

/-- The signed reading of a product is exact just where the integer product is in the signed range (R97). -/
theorem toInt_mul_eq_iff (a b : Int128) :
    (a * b).toInt = a.toInt * b.toInt ↔ -(2 ^ 127) ≤ a.toInt * b.toInt ∧ a.toInt * b.toInt < 2 ^ 127 := by
  constructor
  · intro h
    exact h ▸ toInt_bounds (a * b)
  · rintro ⟨hlo, hhi⟩
    rw [BitVec.toInt_mul, Int.bmod_eq_of_le hlo hhi]

theorem fVal_one : fVal 1 = 1#128 := by decide

theorem fVal_neg_one : fVal (-1) = -1#128 := by decide

/-- Settles O29: the result of `mul` is `F_mul`, in its word form. -/
theorem mulWritesModularProduct : Obligations.MulWritesModularProduct := by
  intro d a b s
  have hresult : resultOf (.mul d a b) s = s.slot a * s.slot b := fMul_eq_mul (s.slot a) (s.slot b)
  exact hresult ▸ exec_onlySlotWritten (.mul d a b) s

/-- Settles O42: the loop's words of `mulAfter_eq`, read as numbers. -/
theorem shiftAndAddInvariant : Obligations.ShiftAndAddInvariant := by
  intro a b j hj
  have hlow : ((b.setWidth j).setWidth 128).toNat = b.toNat % 2 ^ j := by
    rw [BitVec.toNat_setWidth_of_le hj, BitVec.toNat_setWidth]
  rw [mulAfter_eq]
  constructor
  · rw [BitVec.toNat_shiftLeft, Nat.shiftLeft_eq]
  · rw [BitVec.toNat_mul, hlow]

/-- Settles O43: the word form, and the two signed readings of a product of words. -/
theorem shiftAndAddIsRingProduct : Obligations.ShiftAndAddIsRingProduct := by
  unfold Obligations.ShiftAndAddIsRingProduct
  simp only [fMul_eq_mul]
  exact ⟨BitVec.toNat_mul, toInt_mul_modEq, toInt_mul_eq_iff⟩

/-- Settles O44: each law of R98 is one of 128-bit words; the product by a constructed power of two is the shift of R92. -/
theorem ringLaws : Obligations.RingLaws := by
  unfold Obligations.RingLaws
  simp only [fMul_eq_mul, fSum_eq_add, fComp2_eq_neg, fVal_one, fVal_neg_one]
  refine ⟨fun a b => ⟨BitVec.add_comm a b, BitVec.mul_comm a b⟩, fun a b c => ⟨BitVec.add_assoc a b c, BitVec.mul_assoc a b c⟩,
    fun _ _ _ => BitVec.mul_add, fun _ _ => ⟨BitVec.mul_zero, BitVec.zero_mul⟩, fun a => ⟨BitVec.mul_one a, ?_⟩, fun a k hk => ?_⟩
  · rw [BitVec.mul_neg, BitVec.mul_one]
  · rw [fShl_eq_fMul_two_pow a hk, fMul_eq_mul]

end Sys2Proof.Machine
end

section
/-! Completion (spec/60_exceptions.md R100) and the transactions that commute (R107 (a)). A transaction's effect and its answers depend
on the slots it reads, so two transactions of which neither writes a slot the other touches see and leave the same in either order. -/

namespace Sys2Proof.Machine

/-- Settles O12: `exec_eq` names the state a command leaves, and the frame lemma of one step says that the step completes. -/
theorem everyStepCompletes : Obligations.EveryStepCompletes :=
  ⟨fun i s => ⟨_, exec_eq i s⟩, fun s => (step_keeps_unnamed_slots s).imp fun _ => And.left⟩

/-- `conflict` reads the same from either side. -/
theorem HostEvent.conflict.symm {e e' : HostEvent} (h : e.conflict e') : e'.conflict e := by
  obtain ⟨i, ⟨he, he' | hr'⟩ | ⟨he', hr⟩⟩ := h
  · exact ⟨i, .inl ⟨he', .inl he⟩⟩
  · exact ⟨i, .inr ⟨he, hr'⟩⟩
  · exact ⟨i, .inl ⟨he', .inr hr⟩⟩

/-- Two stores that agree on a command's sources give it the same result (R15). -/
theorem datapath_congr_of_sources {cw : CommandWord} {sc : Scalar} {x y : Vector Int128 16}
    (h : ∀ j ∈ (decode cw sc).sources, x[j] = y[j]) :
    datapath (Opcode.ofBits (fieldOp cw)) x[fieldRa cw] x[fieldRb cw] sc =
      datapath (Opcode.ofBits (fieldOp cw)) y[fieldRa cw] y[fieldRb cw] sc := by
  have hresult : resultOf (decode cw sc) ⟨x, [], []⟩ = resultOf (decode cw sc) ⟨y, [], []⟩ := resultOf_congr h
  rwa [resultOf_decode, resultOf_decode] at hresult

/-- What a transaction leaves in a slot depends on that slot and on the slots it reads (R15, R41). -/
theorem HostEvent.getElem_onStore_congr {e : HostEvent} {x y : Vector Int128 16} {i : Slot}
    (hreads : ∀ j ∈ e.reads, x[j] = y[j]) (hi : x[i] = y[i]) : (e.onStore x)[i] = (e.onStore y)[i] := by
  have set_congr : ∀ {d : Slot} {v w : Int128}, v = w → (x.set d v)[i] = (y.set d w)[i] := by
    rintro d v _ rfl
    simp only [Fin.getElem_fin, Vector.getElem_set] at hi ⊢
    rw [hi]
  cases e with
  | command cw sc => exact set_congr (datapath_congr_of_sources hreads)
  | writeByte j k v => exact set_congr (congrArg (setByte · k v) (hreads j (List.mem_singleton_self j)))
  | writeSlot j w => exact set_congr rfl
  | readByte j k => exact hi
  | readSlot j => exact hi
  | reset => exact hi

/-- What the host gets back for a transaction depends on the slots it reads (R42). -/
theorem HostEvent.answersOn_congr {e : HostEvent} {x y : Vector Int128 16} (hreads : ∀ j ∈ e.reads, x[j] = y[j]) :
    e.answersOn x = e.answersOn y := by
  cases e with
  | readByte i k => exact congrArg (fun v => [HostAnswer.byte (byteOf v k)]) (hreads i (List.mem_singleton_self i))
  | readSlot i => exact congrArg (fun v => [HostAnswer.slot v]) (hreads i (List.mem_singleton_self i))
  | command cw sc => rfl
  | writeByte i k v => rfl
  | writeSlot i w => rfl
  | reset => rfl

/-- Without a conflict, `e` leaves the slots that `e'` reads alone. -/
theorem HostEvent.getElem_onStore_of_mem_reads {e e' : HostEvent} (h : ¬ e.conflict e') (x : Vector Int128 16) :
    ∀ j ∈ e'.reads, (e.onStore x)[j] = x[j] :=
  fun j hj => getElem_onStore_of_writes_ne (fun he => h ⟨j, .inl ⟨he, .inr hj⟩⟩) x

/-- Without a conflict, a slot that `e` does not write holds what `e'` leaves there, whichever of the two comes first. -/
theorem HostEvent.getElem_onStore_onStore_of_writes_ne {e e' : HostEvent} (h : ¬ e.conflict e') {i : Slot}
    (hi : e.writes ≠ some i) (x : Vector Int128 16) :
    (e.onStore (e'.onStore x))[i] = (e'.onStore (e.onStore x))[i] :=
  calc (e.onStore (e'.onStore x))[i] = (e'.onStore x)[i] := getElem_onStore_of_writes_ne hi _
    _ = (e'.onStore (e.onStore x))[i] :=
      (getElem_onStore_congr (getElem_onStore_of_mem_reads h x) (getElem_onStore_of_writes_ne hi x)).symm

/-- Transactions without a conflict leave the same store in either order: at most one of the two writes a given slot. -/
theorem HostEvent.onStore_comm {e e' : HostEvent} (h : ¬ e.conflict e') (x : Vector Int128 16) :
    e.onStore (e'.onStore x) = e'.onStore (e.onStore x) := by
  refine store_ext fun i => ?_
  by_cases hi : e.writes = some i
  · have hi' : e'.writes ≠ some i := fun he' => h ⟨i, .inl ⟨hi, .inl he'⟩⟩
    exact (getElem_onStore_onStore_of_writes_ne (mt conflict.symm h) hi' x).symm
  · exact getElem_onStore_onStore_of_writes_ne h hi x

/-- Transactions without a conflict are answered alike in either order, each with its own answer. -/
theorem answersAfter_pair_perm {e e' : HostEvent} (h : ¬ e.conflict e') (x : Vector Int128 16) :
    (answersAfter x [e, e']).Perm (answersAfter x [e', e]) := by
  have he' : e'.answersOn (e.onStore x) = e'.answersOn x :=
    HostEvent.answersOn_congr (HostEvent.getElem_onStore_of_mem_reads h x)
  have he : e.answersOn (e'.onStore x) = e.answersOn x :=
    HostEvent.answersOn_congr (HostEvent.getElem_onStore_of_mem_reads (mt HostEvent.conflict.symm h) x)
  simpa only [answersAfter, List.append_nil, he, he'] using List.perm_append_comm

/-- Settles O17: the run over each list is known (`run_length_port`); the stores agree by `onStore_comm`, the answers by
`answersAfter_pair_perm`. -/
theorem disjointTransactionsCommute : Obligations.DisjointTransactionsCommute := by
  intro s e e' h
  exact ⟨_, _, run_length_port [e, e'] s.x s.answers, run_length_port [e', e] s.x s.answers,
    (HostEvent.onStore_comm h s.x).symm, (answersAfter_pair_perm h s.x).append_left s.answers⟩

end Sys2Proof.Machine
end

section
/-! Reset (spec/70_reset_and_hazards.md R110). -/

namespace Sys2Proof.Machine

/-- Settles O49, by the step lemma of a reset: `coreReset` is the identity, so all that differs is the host's list. -/
theorem resetKeepsEverySlot : Obligations.ResetKeepsEverySlot :=
  fun _ _ hport => step_of_reset hport

end Sys2Proof.Machine
end

section
/-! The host's side of the state (spec/10_state.md R17, spec/20_memory.md R36, R43): a command placed on the list is performed next
(spec/30_encoding.md R50), no command looks at the list or at the answers, and an empty list leaves the core idle. -/

namespace Sys2Proof.Machine

/-- Sixteen bits laid out as one number hold the command word alone: the scalar, from bit 16 up, is zero. -/
theorem tableCommand_sixteen (w : Nat) : tableCommand 16 w = (BitVec.ofNat 16 w, 0#64) := by
  have hword : BitVec.ofNat 16 (w % 2 ^ 16) = BitVec.ofNat 16 w := BitVec.eq_of_toNat_eq (by simp)
  have hscalar : (w % 2 ^ 16) >>> 16 = 0 := Nat.shiftRight_eq_zero _ _ (Nat.mod_lt w (by decide))
  rw [tableCommand, hword, hscalar]

/-- A command that the host presents is performed by the very next step, on the state it was presented to (R36). -/
theorem step_present_command (s : State) (cw : CommandWord) (sc : Scalar) :
    step (s.present (.command cw sc)) = exec (decode cw sc) s :=
  stepPerformsDecodedCommand (s.present (.command cw sc)) cw sc s.port rfl

/-- Settles O10: the placed command is the one presented next, and sixteen bits give it the scalar 0. -/
theorem placedCommandIsPerformedNext : Obligations.PlacedCommandIsPerformedNext := by
  intro s w
  rw [State.withFetchWord, tableCommand_sixteen]
  exact step_present_command s (BitVec.ofNat 16 w) 0#64

/-- A command's result does not depend on the host's side (R15). -/
theorem resultOf_host_side (i : Instr) (s : State) (p : List HostEvent) (q : List HostAnswer) :
    resultOf i { s with port := p, answers := q } = resultOf i s :=
  resultOf_congr fun _ _ => rfl

/-- Settles O15: all a command does is one slot write (`exec_eq`), and what it writes does not depend on the host's side. -/
theorem commandsDoNotTouchHostSide : Obligations.CommandsDoNotTouchHostSide := by
  intro i s p q
  refine ⟨_, exec_eq i s, State.setSlot_port .., State.setSlot_answers .., ?_⟩
  rw [exec_eq, resultOf_host_side]
  rfl

/-- Settles O21, by the step lemma of an empty list. -/
theorem idleCoreKeepsState : Obligations.IdleCoreKeepsState :=
  fun _ hport => step_of_nil hport

/-- After power-on each slot holds the pattern the model names for it (R23). -/
@[simp] theorem State.slot_reset (i : Slot) : State.reset.slot i = Config.powerOnSlot i := by
  simp [State.slot, State.reset]

/-- Settles O50: the host's side starts empty, and the slots are those of `State.slot_reset`. -/
theorem powerOnHoldsNamedPatternsNothingPending : Obligations.PowerOnHoldsNamedPatternsNothingPending :=
  ⟨rfl, rfl, State.slot_reset⟩

end Sys2Proof.Machine
end
